-- ==== Sys2Proof/Word.lean ====
section
/-! DEFINITION. The one word of the machine: the unsigned 8-bit byte (00_scope.md R5). -/

namespace Sys2Proof

/-- A register, a memory cell, the program counter, the flags register or an instruction byte: an unsigned 8-bit value
(00_scope.md R5; no value of this machine is ever read as signed). -/
abbrev Byte := BitVec 8

end Sys2Proof
end

