-- ==== Sys2Proof/Config.lean ====
section
/-! DEFINITION. What is fixed for a machine and not state: the names the Dispatch Table maps to, and the parameters the
spec leaves open (00_scope.md R4, 10_state.md R8, 40_engine_cycle.md R70). The default values stand in Decode.lean. -/

namespace Sys2Proof

/-- The handlers of the Dispatch Table, one for each row of spec/opcode_table.json (30_encoding.md R50). -/
inductive Mnemonic where
  | ldi | prn | hlt | mul | push | pop | cmp | jmp | jeq | jne | add
  deriving DecidableEq, Repr

/-- The parameters of the step: `OPCODE(m)` for each instruction whose byte the source does not state, and `HAS_ADD`
(00_scope.md R4; 92_eei_decisions.md D1, D7). LDI, PRN and HLT are not here: the source states their bytes. -/
structure Config where
  mul : Byte
  push : Byte
  pop : Byte
  cmp : Byte
  jmp : Byte
  jeq : Byte
  jne : Byte
  add : Byte
  hasAdd : Bool
  deriving DecidableEq, Repr

end Sys2Proof
end

