-- ==== Sys2Proof/Syntax.lean ====
section
/-! DEFINITION. The instructions as syntax, one constructor for each row of spec/opcode_table.json. -/

namespace Sys2Proof

/-- An instruction with its operand bytes as they stand in memory (30_encoding.md R43, R47). A register operand is kept
as the whole byte: that a byte above 7 names no register is found by the handler, not by the decoder (R48), so every byte
is an operand here. -/
inductive Instr where
  /-- LDI destReg, immediate (R73). -/
  | ldi (ra imm : Byte)
  /-- PRN srcReg (R74). -/
  | prn (ra : Byte)
  /-- HLT (R75). -/
  | hlt
  /-- MUL regA, regB (R78). -/
  | mul (ra rb : Byte)
  /-- PUSH srcReg (R84). -/
  | push (ra : Byte)
  /-- POP destReg (R85). -/
  | pop (ra : Byte)
  /-- CMP regA, regB (R79). -/
  | cmp (ra rb : Byte)
  /-- JMP addrReg (R88). -/
  | jmp (ra : Byte)
  /-- JEQ addrReg (R89). -/
  | jeq (ra : Byte)
  /-- JNE addrReg (R90). -/
  | jne (ra : Byte)
  /-- ADD regA, regB, the optional instruction (R80). -/
  | add (ra rb : Byte)
  deriving DecidableEq, Repr

end Sys2Proof
end

