-- ==== Sys2Proof/WellFormed.lean ====
section
/-! DEFINITION. Which instructions have only legal operands: a register operand is 0..7, an immediate is any byte
(30_encoding.md R48, R49). The decoder gives ill-formed instructions too, and their handlers raise the fault the spec
names for them. -/

namespace Sys2Proof

/-- A register operand byte names a register: 0..7, with no masking of the upper bits (30_encoding.md R48). -/
def legalRegister (v : Byte) : Bool := decide (v.toNat ≤ 7)

/-- Every register operand of the instruction is legal. LDI's second operand is an immediate and is never checked
(60_exceptions.md R105). -/
def Instr.wellFormed : Instr → Bool
  | .ldi ra _ => legalRegister ra
  | .prn ra => legalRegister ra
  | .hlt => true
  | .mul ra rb => legalRegister ra && legalRegister rb
  | .push ra => legalRegister ra
  | .pop ra => legalRegister ra
  | .cmp ra rb => legalRegister ra && legalRegister rb
  | .jmp ra => legalRegister ra
  | .jeq ra => legalRegister ra
  | .jne ra => legalRegister ra
  | .add ra rb => legalRegister ra && legalRegister rb

end Sys2Proof
end

