-- ==== Sys2Proof/Decode.lean ====
section
/-! DEFINITION. The opcode map, the Instruction Decoder's two masks, the decoder of instruction bytes and its encoder
(30_encoding.md), and the default of every parameter of Config. -/

namespace Sys2Proof

/-- The values the spec takes for its open parameters (00_scope.md R4). PRESUMED (log entry 1): the eight bytes are the
LS-8 family's, given by the spec from general knowledge (92_eei_decisions.md D1). DESIGN CHOICE (log entry 2): no ADD
(D7). -/
def defaultConfig : Config :=
  { mul := 0xA2, push := 0x45, pop := 0x46, cmp := 0xA7, jmp := 0x54, jeq := 0x55, jne := 0x56, add := 0xA0,
    hasAdd := false }

/-- The same bytes with the optional ADD present: every row of spec/opcode_table.json is mapped. -/
def tableConfig : Config := { defaultConfig with hasAdd := true }

/-- The opcode byte of each instruction (30_encoding.md R50). The source itself states the bytes of LDI, PRN and HLT. -/
def opcodeByte (c : Config) : Mnemonic → Byte
  | .ldi => 0x82
  | .prn => 0x47
  | .hlt => 0x01
  | .mul => c.mul
  | .push => c.push
  | .pop => c.pop
  | .cmp => c.cmp
  | .jmp => c.jmp
  | .jeq => c.jeq
  | .jne => c.jne
  | .add => c.add

/-- How many operand bytes the instruction's format has: OP0, OP1 or OP2 (30_encoding.md R43). -/
def operandCount : Mnemonic → Nat
  | .ldi | .mul | .cmp | .add => 2
  | .prn | .push | .pop | .jmp | .jeq | .jne => 1
  | .hlt => 0

/-- Whether the instruction's handler writes `pc` itself (10_state.md R15, 30_encoding.md R51). -/
def writesPc : Mnemonic → Bool
  | .jmp | .jeq | .jne => true
  | .ldi | .prn | .hlt | .mul | .push | .pop | .cmp | .add => false

/-- `setsPC(op) = (op >> 4) & 0x1`, bit 4 and not the bit 5 of the source's legend (30_encoding.md R45,
90_conflicts.md C1). -/
def setsPC (op : Byte) : Bool := (op >>> 4) &&& 1 == 1

/-- `advance(op) = (op >> 6) + 1`, an integer in 1..4 (30_encoding.md R45). -/
def advance (op : Byte) : Nat := (op >>> 6).toNat + 1

/-- The instructions the Dispatch Table holds: ADD is one of them only when `HAS_ADD` (30_encoding.md R50, R54). -/
def mappedMnemonics (c : Config) : List Mnemonic :=
  [.ldi, .prn, .hlt, .mul, .push, .pop, .cmp, .jmp, .jeq, .jne] ++ (if c.hasAdd then [.add] else [])

/-- The Dispatch Table: the opcode bytes that are keys, each with its handler (30_encoding.md R50). -/
def dispatchTable (c : Config) : List (Byte × Mnemonic) :=
  (mappedMnemonics c).map fun m => (opcodeByte c m, m)

/-- The keys of the Dispatch Table: every other byte is unmapped (30_encoding.md R52). -/
def dispatchKeys (c : Config) : List Byte := (dispatchTable c).map Prod.fst

/-- The dispatch lookup compares the whole byte with the keys (40_engine_cycle.md R64). -/
def lookupOpcode (c : Config) (op : Byte) : Option Mnemonic := (dispatchTable c).lookup op

/-- The constraints the source puts on any assignment of opcode bytes (30_encoding.md R51): each byte's shape agrees with
its handler, the bytes are distinct, and 0xFF is unmapped. -/
abbrev ValidAssignment (c : Config) : Prop :=
  (∀ m ∈ mappedMnemonics c, advance (opcodeByte c m) = operandCount m + 1 ∧ setsPC (opcodeByte c m) = writesPc m) ∧
  (dispatchKeys c).Nodup ∧ (0xFF : Byte) ∉ dispatchKeys c

/-- The handler a byte selects, given both operand bytes; it uses as many as its format has (30_encoding.md R47,
40_engine_cycle.md R65). -/
def buildInstr (a b : Byte) : Mnemonic → Instr
  | .ldi => .ldi a b
  | .prn => .prn a
  | .hlt => .hlt
  | .mul => .mul a b
  | .push => .push a
  | .pop => .pop a
  | .cmp => .cmp a b
  | .jmp => .jmp a
  | .jeq => .jeq a
  | .jne => .jne a
  | .add => .add a b

/-- The handler of an instruction. -/
def Instr.mnemonic : Instr → Mnemonic
  | .ldi _ _ => .ldi
  | .prn _ => .prn
  | .hlt => .hlt
  | .mul _ _ => .mul
  | .push _ => .push
  | .pop _ => .pop
  | .cmp _ _ => .cmp
  | .jmp _ => .jmp
  | .jeq _ => .jeq
  | .jne _ => .jne
  | .add _ _ => .add

/-- The operand bytes of an instruction, the one at the lower address first (20_memory.md R32). -/
def Instr.operands : Instr → List Byte
  | .ldi ra imm => [ra, imm]
  | .prn ra => [ra]
  | .hlt => []
  | .mul ra rb => [ra, rb]
  | .push ra => [ra]
  | .pop ra => [ra]
  | .cmp ra rb => [ra, rb]
  | .jmp ra => [ra]
  | .jeq ra => [ra]
  | .jne ra => [ra]
  | .add ra rb => [ra, rb]

/-- Why bytes are no instruction. -/
inductive DecodeError where
  /-- The first byte is no key of the Dispatch Table (30_encoding.md R52). -/
  | unmappedOpcode (op : Byte)
  /-- Fewer bytes than the instruction's format has. Never seen by the engine, which always reads three. -/
  | truncated
  deriving DecidableEq, Repr

/-- The operand bytes that follow an opcode of this handler, and the bytes after them. -/
def takeOperands (m : Mnemonic) (bytes : List Byte) : Except DecodeError (Instr × List Byte) :=
  match operandCount m, bytes with
  | 0, rest => .ok (buildInstr 0 0 m, rest)
  | 1, a :: rest => .ok (buildInstr a 0 m, rest)
  | 2, a :: b :: rest => .ok (buildInstr a b m, rest)
  | _, _ => .error .truncated

/-- The instruction at the head of the bytes, in address order, with the bytes after it; or why there is none. -/
def decode (c : Config) : List Byte → Except DecodeError (Instr × List Byte)
  | [] => .error .truncated
  | op :: rest =>
    match lookupOpcode c op with
    | none => .error (.unmappedOpcode op)
    | some m => takeOperands m rest

/-- What the three bytes the engine has fetched say (40_engine_cycle.md R62 items 1 to 4): the instruction, or none where
the opcode byte is no key. -/
def decodeFetched (c : Config) (ir opa opb : Byte) : Option Instr :=
  match decode c [ir, opa, opb] with
  | .ok (i, _) => some i
  | .error _ => none

/-- The bytes of an instruction in address order: the opcode byte, then the operand bytes (30_encoding.md R43). -/
def encode (c : Config) (i : Instr) : List Byte := opcodeByte c i.mnemonic :: i.operands

/-- Byte `k` of an instruction whose bits are `w`, numbered as spec/opcode_table.json numbers them, all bits from `nbits`
up being 0. -/
def tableByte (nbits w k : Nat) : Byte := BitVec.ofNat 8 ((w % 2 ^ nbits) >>> (8 * k))

/-- The three bytes of such an instruction: the longest instruction has three (30_encoding.md R56). -/
def tableBytes (nbits w : Nat) : List Byte := [tableByte nbits w 0, tableByte nbits w 1, tableByte nbits w 2]

/-- The instruction the decoder reads from a word of the opcode table. The table lists the optional ADD, so the decoder is
given the assignment that maps it (DESIGN CHOICE, log entry 3). -/
def decodeTableWord (nbits w : Nat) : Option Instr :=
  match decode tableConfig (tableBytes nbits w) with
  | .ok (i, _) => some i
  | .error _ => none

end Sys2Proof
end

