-- ==== Sys2Proof/Machine/State.lean ====
section
/-! DEFINITION. The architectural state of the core, all of it (10_state.md R8), the fatal conditions the engine state can
record, why a step can stop, and the state after reset. -/

namespace Sys2Proof.Machine

/-- The operation selector of the ALU (42_alu.md R76). -/
inductive AluSelector where
  | multiply
  | compare
  | add
  /-- A selector the ALU does not recognise. No handler passes one (42_alu.md R81; log entry 20). -/
  | other (name : String)
  deriving DecidableEq, Repr

/-- The fatal conditions the core can raise, each with the info it records (60_exceptions.md R101). LoadFailure is not
here: the host's loader has it and the core never runs (R107). -/
inductive FatalCondition where
  /-- The byte at `pc` is no key of the Dispatch Table (R102). -/
  | unhandledInstruction (op : Byte)
  /-- PUSH would cross the program-end boundary (R103). -/
  | stackOverflow (sp bound : Byte)
  /-- An address above 255 would be accessed or loaded into `pc` (R104). -/
  | addressOutOfRange (addr : Nat)
  /-- A register operand byte is above 7 (R105). -/
  | invalidRegisterIndex (v : Byte)
  /-- The ALU was given an undefined selector; unreachable (R106). -/
  | unsupportedOperation (sel : AluSelector)
  deriving DecidableEq, Repr

/-- The engine state `run` (10_state.md R19). -/
inductive EngineState where
  /-- The engine takes steps. -/
  | running
  /-- Terminal: the HLT handler ran. -/
  | halted
  /-- Terminal: a fatal condition was raised. -/
  | faulted (condition : FatalCondition)
  deriving DecidableEq, Repr

/-- Why there is no next state. The fatal conditions of the spec are NOT here: raising one writes `run`, which is a next
state (60_exceptions.md R110). -/
inductive Fault where
  /-- Raised by `step` (by no instruction) when `run` is Halted or Faulted: the engine takes no step, ever
  (40_engine_cycle.md R61). Safe: the spec gives no next state there. -/
  | notRunning (run : EngineState)
  deriving DecidableEq, Repr

/-- An instruction without a meaning. -/
inductive Refusal where
  /-- Raised by `exec` for an instruction the model has not reached; no arm of this model uses it. Safe: no next state is
  claimed. -/
  | notModelled (mnemonic : String)
  deriving DecidableEq, Repr

/-- The Memory as the cells that do not hold the reset value, by rising address (10_state.md R22; log entry 24). -/
abbrev Memory := List Host.Cell

/-- What a cell the list does not name holds: reset zero-fills the Memory (10_state.md R25). -/
def Memory.unlisted : Byte := 0x00

/-- The canonical form: addresses strictly rising and inside 0..255 (20_memory.md R27), no entry equal to what an
unlisted cell holds. -/
abbrev Memory.wf (m : Memory) : Prop :=
  m.Pairwise (fun p q => p.1 < q.1) ∧ ∀ p ∈ m, p.1 < 256 ∧ p.2 ≠ Memory.unlisted

/-- The complete architectural state `(x[0..7], pc, fl, run, mem, out)` (10_state.md R8): there is no other state. -/
structure State where
  /-- The Register File; `x[7]` is the stack pointer, `x[4]` the program-end boundary (R9 to R11). -/
  x : Vector Byte 8
  /-- The Program Counter (R14). -/
  pc : Byte
  /-- The Flags Register; only bit 0, Equal, is defined (R17). -/
  fl : Byte
  /-- The engine state (R19). -/
  run : EngineState
  /-- The Memory (R22). -/
  mem : Memory
  /-- The bytes the output port has emitted, in order (R23). -/
  out : List Byte
  deriving DecidableEq, Repr

/-- The outcome of running an instruction or taking a step. -/
abbrev Result := Host.Outcome State Fault Refusal

/-- The state after reset, before the loader runs (10_state.md R25), for any value of the registers whose reset value the
source does not state (the parameter `RESET_GPR` of 00_scope.md R4). -/
def State.resetWith (gpr : Byte) : State :=
  { x := #v[gpr, gpr, gpr, gpr, gpr, gpr, gpr, 0xF4], pc := 0x00, fl := 0x00, run := .running, mem := [], out := [] }

/-- The machine right after reset. PRESUMED (log entry 4): `x[0]` to `x[6]` are 0x00, the spec's own choice after the LS-8
family (92_eei_decisions.md D4). -/
def State.reset : State := State.resetWith 0x00

end Sys2Proof.Machine
end

