-- ==== Sys2Proof/Machine/Ops.lean ====
section
/-! DEFINITION. The named operations every meaning is written over: the updates of the state, the Memory's read and write,
raising a fatal condition, the fetch, and the engine's advance of the program counter. -/

namespace Sys2Proof.Machine

/-! ## The Memory as a list of cells -/

/-- What the cell at an address holds. -/
def Memory.read (m : Memory) (a : Nat) : Byte := (m.lookup a).getD Memory.unlisted

/-- A cell put in front of a list, but for one that holds what an unlisted cell holds. -/
def Memory.cons (a : Nat) (v : Byte) (m : Memory) : Memory := if v = Memory.unlisted then m else (a, v) :: m

/-- The Memory with one cell changed, in canonical form. -/
def Memory.write : Memory → Nat → Byte → Memory
  | [], a, v => Memory.cons a v []
  | (b, w) :: rest, a, v =>
    if a < b then Memory.cons a v ((b, w) :: rest)
    else if a = b then Memory.cons a v rest
    else (b, w) :: Memory.write rest a v

/-- Bytes stored from an address upwards, one a cell; a byte whose address would be above 255 is not stored. -/
def Memory.writeFrom (m : Memory) (a : Nat) : List Byte → Memory
  | [] => m
  | v :: vs => Memory.writeFrom (if a ≤ 255 then m.write a v else m) (a + 1) vs

/-! ## Registers and the other parts of the state (00_scope.md R6) -/

/-- The stack pointer, register 7 (10_state.md R10). -/
def spIndex : Fin 8 := 7

/-- The register that holds the program-end boundary, register 4 (10_state.md R11). -/
def boundIndex : Fin 8 := 4

/-- `x[i]`. -/
def State.reg (s : State) (i : Fin 8) : Byte := s.x[i]

/-- `x[i] <- v`. No register is hardwired or ignores writes (10_state.md R9). -/
def State.setReg (s : State) (i : Fin 8) (v : Byte) : State := { s with x := s.x.set i v }

/-- `pc <- t`. -/
def State.setPc (s : State) (t : Byte) : State := { s with pc := t }

/-- The flags register written. -/
def State.setFl (s : State) (f : Byte) : State := { s with fl := f }

/-- `run <- r`. -/
def State.setRun (s : State) (r : EngineState) : State := { s with run := r }

/-- The Memory replaced. -/
def State.setMem (s : State) (m : Memory) : State := { s with mem := m }

/-- `Emit(v)`: one byte appended to the output trace (00_scope.md R6, 45_host_interface.md R96). The core emits the byte;
its decimal text is the sink's (DESIGN CHOICE, log entry 17). -/
def State.emit (s : State) (v : Byte) : State := { s with out := s.out ++ [v] }

/-! ## Taking a fault (60_exceptions.md R110) -/

/-- `raise F(info)`: `run` becomes Faulted, nothing else changes, and the step ends. There is no handler and no return
from it (R111), so this is the whole of taking an exception (DESIGN CHOICE, log entry 16: a next state). -/
def raise (f : FatalCondition) (s : State) : Result := .next (s.setRun (.faulted f))

/-! ## Memory access with its bound (20_memory.md R28 to R30) -/

/-- `MemRead(addr, 1)`, handing the byte on; an address above 255 raises AddressOutOfRange, with no wrap (DESIGN CHOICE,
log entry 5). -/
def withRead (addr : Nat) (s : State) (k : Byte → Result) : Result :=
  if addr > 255 then raise (.addressOutOfRange addr) s else k (s.mem.read addr)

/-- `MemWrite(addr, 1, v)`, handing on the state with that one cell changed; bounded as `withRead`. -/
def withWrite (addr : Nat) (v : Byte) (s : State) (k : State → Result) : Result :=
  if addr > 255 then raise (.addressOutOfRange addr) s else k (s.setMem (s.mem.write addr v))

/-- Items 1 to 3 of the step: the opcode byte and, whatever it is, the two bytes after it (40_engine_cycle.md R62, R63;
the unconditional pre-fetch is kept, DESIGN CHOICE, log entry 15). -/
def fetch (s : State) (k : Byte → Byte → Byte → Result) : Result :=
  withRead s.pc.toNat s fun ir =>
  withRead (s.pc.toNat + 1) s fun opa =>
  withRead (s.pc.toNat + 2) s fun opb => k ir opa opb

/-! ## The program counter (10_state.md R15, R16; 40_engine_cycle.md R66, R67) -/

/-- `pc <- n` for an integer `n`, handing on the state: a value above 255 raises AddressOutOfRange and leaves `pc` (DESIGN
CHOICE, log entry 10). -/
def movePc (n : Nat) (s : State) (k : State → Result) : Result :=
  if n > 255 then raise (.addressOutOfRange n) s else k (s.setPc (BitVec.ofNat 8 n))

/-- Item 6 of the step: the advance, decided by the fetched byte alone and from no table (30_encoding.md R46), unless its
bit 4 says the handler set `pc`. The sum is taken from `pc` as the handler left it (DEDUCED, log entry 23). -/
def advancePc (ir : Byte) (s : State) : Result :=
  if setsPC ir then .next s else movePc (s.pc.toNat + advance ir) s .next

/-- What the engine does with what the handler of a fetched byte answers: a raise has ended the step (60_exceptions.md
R110); a handler that returned, HLT's too (40_engine_cycle.md R68), is followed by item 6. -/
def completeStep (ir : Byte) : Result → Result
  | .next t =>
    match t.run with
    | .faulted _ => .next t
    | .running | .halted => advancePc ir t
  | .fault f => .fault f
  | .refused r => .refused r

/-- An instruction's bytes laid where the engine fetches next: what a load puts there for the host's question about one
word. -/
def placeBytes (s : State) (bytes : List Byte) : State := s.setMem (s.mem.writeFrom s.pc.toNat bytes)

end Sys2Proof.Machine
end

