-- ==== Sys2Proof/Machine/Flags.lean ====
section
/-! DEFINITION. The flags register: the one defined bit, Equal, is bit 0 (10_state.md R17). -/

namespace Sys2Proof.Machine

/-- `fl[0]`, the Equal bit. -/
def equalFlag (fl : Byte) : Bool := fl.getLsbD 0

/-- `fl[0] <- b`: bit 0 written, bits 7:1 kept (10_state.md R18, 42_alu.md R79). -/
def setEqualFlag (fl : Byte) (b : Bool) : Byte := (fl &&& 0xFE) ||| (if b then 1 else 0)

/-- Bits 7:1 of a flags value, reserved: reset to 0 and written by nothing (10_state.md R17). -/
def reservedFlags (fl : Byte) : Byte := fl &&& 0xFE

end Sys2Proof.Machine
end

