-- ==== Sys2Proof/Machine/Operands.lean ====
section
/-! DEFINITION. The operand forms: a register operand byte (30_encoding.md R48), the only operand with a check. An
immediate is the byte itself (R49) and needs no operation. -/

namespace Sys2Proof.Machine

/-- The operand byte that names a register. -/
def regByte (a : Fin 8) : Byte := BitVec.ofNat 8 a.val

/-- The register an operand byte names: 0..7, the upper bits not masked off. -/
def regIndex (v : Byte) : Option (Fin 8) := if h : v.toNat < 8 then some ⟨v.toNat, h⟩ else none

/-- A register operand of a handler, checked at its entry before any state change: a byte above 7 raises
InvalidRegisterIndex (DESIGN CHOICE, log entry 6). -/
def withReg (v : Byte) (s : State) (k : Fin 8 → Result) : Result :=
  match regIndex v with
  | some a => k a
  | none => raise (.invalidRegisterIndex v) s

/-- Two register operands, operand a checked first (60_exceptions.md R109; DESIGN CHOICE, log entry 11). -/
def withRegs (va vb : Byte) (s : State) (k : Fin 8 → Fin 8 → Result) : Result :=
  withReg va s fun a => withReg vb s fun b => k a b

end Sys2Proof.Machine
end

