-- ==== Sys2Proof/Machine/Alu.lean ====
section
/-! DEFINITION. The ALU and the instructions that use it: MUL, CMP and the optional ADD (42_alu.md). -/

namespace Sys2Proof.Machine

/-- `(a * b) mod 256`: the low 8 bits of the exact product (R77). -/
def multiplyBytes (a b : Byte) : Byte := BitVec.ofNat 8 (a.toNat * b.toNat)

/-- `(a + b) mod 256`: the low 8 bits of the exact sum (R77). -/
def addBytes (a b : Byte) : Byte := BitVec.ofNat 8 (a.toNat + b.toNat)

/-- The ALU's one entry point `apply(operation, dest, src)` (R76): it writes the destination register or the Equal flag,
and raises UnsupportedOperation for a selector it does not know (R81). -/
def alu (sel : AluSelector) (dest src : Fin 8) (s : State) (k : State → Result) : Result :=
  match sel with
  | .multiply => k (s.setReg dest (multiplyBytes (s.reg dest) (s.reg src)))
  | .add => k (s.setReg dest (addBytes (s.reg dest) (s.reg src)))
  | .compare => k (s.setFl (setEqualFlag s.fl (s.reg dest == s.reg src)))
  | .other name => raise (.unsupportedOperation (.other name)) s

/-- MUL regA, regB (R78). -/
def execMul (ra rb : Byte) (s : State) : Result :=
  withRegs ra rb s fun a b => alu .multiply a b s .next

/-- CMP regA, regB (R79). -/
def execCmp (ra rb : Byte) (s : State) : Result :=
  withRegs ra rb s fun a b => alu .compare a b s .next

/-- ADD regA, regB (R80), shaped like MUL (DESIGN CHOICE, log entry 26). That the byte reaches this handler only when
`HAS_ADD` is the Dispatch Table's matter. -/
def execAdd (ra rb : Byte) (s : State) : Result :=
  withRegs ra rb s fun a b => alu .add a b s .next

end Sys2Proof.Machine
end

