-- ==== Sys2Proof/Machine/Branch.lean ====
section
/-! DEFINITION. Control transfer: JMP, JEQ and JNE (44_branch.md). -/

namespace Sys2Proof.Machine

/-- The not-taken path of JEQ and JNE: the handler itself adds the literal 2, the instruction's own length (R92). The
engine runs a handler only at `pc` 253 or below; above it `movePc` raises as the advance does (DEDUCED, log entry 22). -/
def notTaken (s : State) : Result := movePc (s.pc.toNat + 2) s .next

/-- JMP addrReg (R88). -/
def execJmp (ra : Byte) (s : State) : Result :=
  withReg ra s fun a => .next (s.setPc (s.reg a))

/-- JEQ addrReg (R89). -/
def execJeq (ra : Byte) (s : State) : Result :=
  withReg ra s fun a => if equalFlag s.fl then .next (s.setPc (s.reg a)) else notTaken s

/-- JNE addrReg (R90). -/
def execJne (ra : Byte) (s : State) : Result :=
  withReg ra s fun a => if equalFlag s.fl then notTaken s else .next (s.setPc (s.reg a))

end Sys2Proof.Machine
end

