-- ==== Sys2Proof/Machine/LoadPrintHalt.lean ====
section
/-! DEFINITION. LDI, PRN and HLT (41_load_print_halt.md). -/

namespace Sys2Proof.Machine

/-- LDI destReg, immediate (R73): the immediate into the register. -/
def execLdi (ra imm : Byte) (s : State) : Result :=
  withReg ra s fun a => .next (s.setReg a imm)

/-- PRN srcReg (R74): the register's value on the output port. -/
def execPrn (ra : Byte) (s : State) : Result :=
  withReg ra s fun a => .next (s.emit (s.reg a))

/-- HLT (R75): the engine halts. The engine still advances `pc` past it, in item 6 as for any byte (40_engine_cycle.md R68;
DESIGN CHOICE, log entry 14). -/
def execHlt (s : State) : Result := .next (s.setRun .halted)

end Sys2Proof.Machine
end

