-- ==== Sys2Proof/Machine/Stack.lean ====
section
/-! DEFINITION. The stack in memory: PUSH and POP (43_stack.md). -/

namespace Sys2Proof.Machine

/-- The stack head 0xF4, where an empty stack's pointer stands (00_scope.md R3, 43_stack.md R83). -/
def stackHead : Byte := 0xF4

/-- PUSH's test `SP - 1 >= programEndBoundary`, over integers (R86). The boundary is the live `x[4]` (DESIGN CHOICE, log
entry 7). -/
def pushFits (s : State) : Bool :=
  decide (((s.reg spIndex).toNat : Int) - 1 ≥ ((s.reg boundIndex).toNat : Int))

/-- The state with the stack pointer decremented, as PUSH leaves it before it stores. -/
def decrementSp (s : State) : State := s.setReg spIndex (s.reg spIndex - 1)

/-- The address PUSH stores to: the decremented stack pointer. -/
def pushAddress (s : State) : Nat := ((decrementSp s).reg spIndex).toNat

/-- The state with the stack pointer incremented if it is strictly below the stack head, as POP leaves it (R85). -/
def incrementSp (s : State) : State :=
  if s.reg spIndex < stackHead then s.setReg spIndex (s.reg spIndex + 1) else s

/-- PUSH srcReg (R84). The source register is read after the decrement, so PUSH R7 stores the decremented stack pointer
(DESIGN CHOICE, log entry 12). -/
def execPush (ra : Byte) (s : State) : Result :=
  withReg ra s fun a =>
    if pushFits s then
      withWrite (pushAddress s) ((decrementSp s).reg a) (decrementSp s) .next
    else raise (.stackOverflow (s.reg spIndex) (s.reg boundIndex)) s

/-- POP destReg (R85). The stack pointer is tested after the destination is written, so POP R7 increments the byte it
loaded (DESIGN CHOICE, log entry 12). There is no underflow. -/
def execPop (ra : Byte) (s : State) : Result :=
  withReg ra s fun a =>
    withRead (s.reg spIndex).toNat s fun v => .next (incrementSp (s.setReg a v))

end Sys2Proof.Machine
end

