-- ==== Sys2Proof/Machine/Dispatch.lean ====
section
/-! DEFINITION. Item 5 of the step for a decoded instruction: the call of its handler. -/

namespace Sys2Proof.Machine

/-- The meaning of each instruction, its handler (40_engine_cycle.md R62 item 5). The advance of `pc` after a handler that
does not write it is the engine's, in `completeStep`. -/
def exec (i : Instr) (s : State) : Host.Outcome State Fault Refusal :=
  match i with
  | .ldi ra imm => Sys2Proof.Machine.execLdi ra imm s
  | .prn ra => Sys2Proof.Machine.execPrn ra s
  | .hlt => Sys2Proof.Machine.execHlt s
  | .mul ra rb => Sys2Proof.Machine.execMul ra rb s
  | .push ra => Sys2Proof.Machine.execPush ra s
  | .pop ra => Sys2Proof.Machine.execPop ra s
  | .cmp ra rb => Sys2Proof.Machine.execCmp ra rb s
  | .jmp ra => Sys2Proof.Machine.execJmp ra s
  | .jeq ra => Sys2Proof.Machine.execJeq ra s
  | .jne ra => Sys2Proof.Machine.execJne ra s
  | .add ra rb => Sys2Proof.Machine.execAdd ra rb s

end Sys2Proof.Machine
end

