-- ==== Sys2Proof/Machine/Step.lean ====
section
/-! DEFINITION. The one transition of the machine (40_engine_cycle.md R62), for any assignment of opcode bytes, and the
machine's own step at the spec's default. -/

namespace Sys2Proof.Machine

/-- A step under a given assignment: enabled only while Running (R61; DESIGN CHOICE, log entry 18: elsewhere it stops);
the three fetches, the dispatch lookup, the handler, then the advance that the fetched byte decides. -/
def stepWith (c : Config) (s : State) : Host.Outcome State Fault Refusal :=
  match s.run with
  | .running =>
    fetch s fun ir opa opb =>
      match decodeFetched c ir opa opb with
      | some i => completeStep ir (exec i s)
      | none => raise (.unhandledInstruction ir) s
  | .halted => .fault (.notRunning .halted)
  | .faulted f => .fault (.notRunning (.faulted f))

/-- The step of the machine, under the parameters the spec takes (00_scope.md R4). -/
def step (s : State) : Host.Outcome State Fault Refusal := stepWith defaultConfig s

/-- The state with an instruction word of the opcode table stored where the step fetches next (log entry 19). -/
def State.withFetchWord (s : State) (nbits w : Nat) : State := placeBytes s (tableBytes nbits w)

end Sys2Proof.Machine
end

