-- ==== Sys2Proof/Machine/HostPort.lean ====
section
/-! DEFINITION. The core's ports to its host (45_host_interface.md R93): reset, load, output, status and dump. Output is the
state's own `out`; the other four are here. None of them moves between launch and the end of a run (R99). -/

namespace Sys2Proof.Machine

/-- Why there is no launch state. -/
inductive LoadError where
  /-- The program file is missing or unreadable (60_exceptions.md R107). -/
  | loadFailure
  /-- The image has 256 bytes or more and is refused before launch (45_host_interface.md R95; log entry 13). -/
  | imageTooLong (length : Nat)
  deriving DecidableEq, Repr

/-- The reset port: every piece of state at its reset value, whatever it held (70_reset_and_hazards.md R119). -/
def resetPort (_ : State) : State := State.reset

/-- The largest image, `MAX_IMAGE` (00_scope.md R4). -/
def maxImage : Nat := 255

/-- The load port on an image that fits: byte `k` to `mem[k]`, the length to `x[4]`, nothing else (45_host_interface.md
R94). -/
def loadImage (image : List Byte) (s : State) : State :=
  (s.setMem (s.mem.writeFrom 0 image)).setReg boundIndex (BitVec.ofNat 8 image.length)

/-- The launch state of an image (45_host_interface.md R100, 70_reset_and_hazards.md R120): reset, then load; `none` stands
for an image that cannot be read. -/
def launch : Option (List Byte) → Except LoadError State
  | none => .error .loadFailure
  | some image => if image.length ≤ maxImage then .ok (loadImage image State.reset) else .error (.imageTooLong image.length)

/-- The status port's code for a fatal condition (45_host_interface.md R97; DESIGN CHOICE, log entry 9: the numbers). -/
def faultCode : FatalCondition → Nat
  | .unhandledInstruction _ => 1
  | .stackOverflow _ _ => 3
  | .addressOutOfRange _ => 4
  | .invalidRegisterIndex _ => 5
  | .unsupportedOperation _ => 6

/-- `STATUS(run)`: no code while the run has not ended, 0 for a normal halt (10_state.md R20). -/
def statusCode : EngineState → Option Nat
  | .running => none
  | .halted => some 0
  | .faulted f => some (faultCode f)

/-- The code of a failed load; the spec gives a refused long image none. -/
def loadErrorCode : LoadError → Option Nat
  | .loadFailure => some 2
  | .imageTooLong _ => none

/-- What the dump port shows (45_host_interface.md R98): the program counter, the flags, three memory bytes and the eight
registers in order. Its text format is out of scope. -/
structure Dump where
  pc : Byte
  fl : Byte
  /-- The cells at `pc`, `pc + 1` and `pc + 2`; none where there is no such address (log entry 21). -/
  bytes : List (Option Byte)
  x : List Byte
  deriving DecidableEq, Repr

/-- A cell as the dump port shows it. -/
def dumpCell (s : State) (a : Nat) : Option Byte := if a ≤ 255 then some (s.mem.read a) else none

/-- The dump port: a read-only view (45_host_interface.md R98). -/
def dump (s : State) : Dump :=
  { pc := s.pc, fl := s.fl,
    bytes := [dumpCell s s.pc.toNat, dumpCell s (s.pc.toNat + 1), dumpCell s (s.pc.toNat + 2)],
    x := s.x.toList }

/-- The result the host reads at the end of a run (40_engine_cycle.md R72). -/
def runResult (s : State) : Option Nat × List Byte := (statusCode s.run, s.out)

end Sys2Proof.Machine
end

