-- ==== Sys2Proof/Safety.lean ====
section
/-! DEFINITION. The terms claims are stated in: runs and their end, the invariant of the machine, the stack discipline of
43_stack.md R87, and what a safe run is. -/

namespace Sys2Proof

open Machine

/-- The invariant of the machine: the Memory in its canonical form, and the reserved bits of the flags 0 as they are at
reset (10_state.md R17). -/
abbrev Inv (s : State) : Prop := s.mem.wf ∧ reservedFlags s.fl = 0

/-- `t` is reached from `s` by steps of the machine (40_engine_cycle.md R71). -/
inductive Reaches (s : State) : State → Prop where
  | refl : Reaches s s
  | step {t u : State} : Reaches s t → Machine.step t = .next u → Reaches s u

/-- The engine is in one of its two terminal states. -/
abbrev Ended (s : State) : Prop := s.run ≠ .running

/-- The run from `s` has ended at `t` (40_engine_cycle.md R72). -/
def EndsAt (s t : State) : Prop := Reaches s t ∧ Ended t

/-- No fatal condition has been raised: the run is going on or has halted normally. -/
def Safe (s : State) : Prop := ∀ f, s.run ≠ .faulted f

/-- The instruction names register `i` as its explicit destination (10_state.md R12; the writers R87 lists). -/
def explicitDest (i : Fin 8) : Instr → Bool
  | .ldi ra _ => regIndex ra == some i
  | .mul ra _ => regIndex ra == some i
  | .add ra _ => regIndex ra == some i
  | .pop ra => regIndex ra == some i
  | .prn _ | .hlt | .push _ | .cmp _ _ | .jmp _ | .jeq _ | .jne _ => false

/-- The instruction leaves register 4 and register 7 to the loader, PUSH and POP (43_stack.md R87 (b)). -/
def keepsStackRegisters (i : Instr) : Prop := explicitDest boundIndex i = false ∧ explicitDest spIndex i = false

/-- What holds throughout a run that keeps the stack discipline, for an image of `n` bytes (43_stack.md R87 (b)). -/
def StackInv (n : Nat) (s : State) : Prop :=
  (s.reg boundIndex).toNat = n ∧ n ≤ (s.reg spIndex).toNat ∧ (s.reg spIndex).toNat ≤ 0xF4

/-- The fatal condition a state has recorded. -/
def faultOf (s : State) : Option FatalCondition :=
  match s.run with
  | .faulted f => some f
  | .running | .halted => none

/-- The register operands of an instruction in the order they are checked (60_exceptions.md R105). -/
def registerOperands : Instr → List Byte
  | .ldi ra _ => [ra]
  | .hlt => []
  | .prn ra | .push ra | .pop ra | .jmp ra | .jeq ra | .jne ra => [ra]
  | .mul ra rb | .cmp ra rb | .add ra rb => [ra, rb]

/-- The instruction is PUSH. -/
def isPush : Instr → Bool
  | .push _ => true
  | .ldi _ _ | .prn _ | .hlt | .mul _ _ | .pop _ | .cmp _ _ | .jmp _ | .jeq _ | .jne _ | .add _ _ => false

/-- The first fault an instruction meets, read off items 4 to 7 of the spec's list (60_exceptions.md R109), not off the
meanings: a bad register operand, a stack overflow, a three-byte instruction at 253. -/
def instrFault (i : Instr) (s : State) : Option FatalCondition :=
  match (registerOperands i).find? fun v => 7 < v.toNat with
  | some v => some (.invalidRegisterIndex v)
  | none =>
    if isPush i = true ∧ (s.reg spIndex).toNat ≤ (s.reg boundIndex).toNat then
      some (.stackOverflow (s.reg spIndex) (s.reg boundIndex))
    else if i.operands.length = 2 ∧ s.pc.toNat = 253 then some (.addressOutOfRange 256)
    else none

/-- The first fault a step meets, in the order of the spec's list (60_exceptions.md R109). -/
def firstFault (c : Config) (s : State) : Option FatalCondition :=
  if s.pc.toNat = 255 then some (.addressOutOfRange (255 + 1))
  else if s.pc.toNat = 254 then some (.addressOutOfRange (254 + 2))
  else
    match decodeFetched c (s.mem.read s.pc.toNat) (s.mem.read (s.pc.toNat + 1)) (s.mem.read (s.pc.toNat + 2)) with
    | none => some (.unhandledInstruction (s.mem.read s.pc.toNat))
    | some i => instrFault i s

/-- The instruction the next step runs, where the three bytes can be read and the first is a key. -/
def nextInstr (c : Config) (s : State) : Option Instr :=
  if s.pc.toNat ≤ 253 then
    decodeFetched c (s.mem.read s.pc.toNat) (s.mem.read (s.pc.toNat + 1)) (s.mem.read (s.pc.toNat + 2))
  else none

end Sys2Proof
end

