-- ==== Sys2Proof/Certificates/Slice0/Obligations.lean ====
section
/-! DEFINITION. The statements for the provers. Each docstring names what of spec/ it formalises; where a clause rests on a
decision of the spec (92_eei_decisions.md) or on general knowledge it says so and names the log entry. -/

open Sys2Proof Sys2Proof.Machine

/-! ## Encoding (30_encoding.md) -/

/-- For every assignment of opcode bytes that meets the shape constraints (30_encoding.md section 3), every mapped
instruction, its operand bytes at every value, is read back from its own bytes, whatever follows them. No bit of an
encoding is dropped, and no two instructions share an encoding. -/
def Obligations.DecodeOfEncodeIsIdentity : Prop :=
  ∀ c, ValidAssignment c → ∀ i : Instr, i.mnemonic ∈ mappedMnemonics c → ∀ rest : List Byte,
    decode c (encode c i ++ rest) = .ok (i, rest)

/-- The other direction, for every assignment: what decodes is the encoding of the instruction it gives, followed by the
bytes left over, and that instruction is mapped. No byte string has a second reading (30_encoding.md sections 1 and 2). -/
def Obligations.DecodedBytesAreTheEncoding : Prop :=
  ∀ (c : Config) (bs rest : List Byte) (i : Instr), decode c bs = .ok (i, rest) →
    bs = encode c i ++ rest ∧ i.mnemonic ∈ mappedMnemonics c

/-- One word of each row, written out from the encodings of 30_encoding.md section 3, reads as its instruction; the default
assignment and the one with ADD meet the shape constraints. The bytes other than 82, 47 and 01 are from general knowledge
(log entry 1). -/
def Obligations.SpecWordsDecode : Prop :=
  ValidAssignment defaultConfig ∧ ValidAssignment tableConfig ∧
  decode defaultConfig [0b10000010, 0x00, 0x08, 0x47] = .ok (.ldi 0 8, [0x47]) ∧
  decode defaultConfig [0b01000111, 0x00, 0x01] = .ok (.prn 0, [0x01]) ∧
  decode defaultConfig [0b00000001] = .ok (.hlt, []) ∧
  decode defaultConfig [0b10100010, 0x00, 0x01] = .ok (.mul 0 1, []) ∧
  decode defaultConfig [0b10100111, 0x01, 0x02] = .ok (.cmp 1 2, []) ∧
  decode defaultConfig [0b01000101, 0x07] = .ok (.push 7, []) ∧
  decode defaultConfig [0b01000110, 0x01] = .ok (.pop 1, []) ∧
  decode defaultConfig [0b01010100, 0x01] = .ok (.jmp 1, []) ∧
  decode defaultConfig [0b01010101, 0x03] = .ok (.jeq 3, []) ∧
  decode defaultConfig [0b01010110, 0x03] = .ok (.jne 3, []) ∧
  decode tableConfig [0b10100000, 0x00, 0x01] = .ok (.add 0 1, []) ∧
  decode defaultConfig [0xFF] = .error (.unmappedOpcode 0xFF)

/-- The decoder is a pure function of the opcode byte alone, defined for all 256 values: `setsPC` is bit 4, `advance` is
bits 7:6 plus one, an integer in 1..4 (R45). -/
def Obligations.DecoderReadsBitFourAndTopBits : Prop :=
  ∀ op : Byte, setsPC op = op.getLsbD 4 ∧ advance op = (op.extractLsb 7 6).toNat + 1 ∧
    1 ≤ advance op ∧ advance op ≤ 4

/-- At every assignment that meets the shape constraints the advance the fetched byte decides is its instruction's own
length: none after JMP, JEQ and JNE, and otherwise the opcode and its operands (30_encoding.md section 3). So a step whose
handler returns leaves what the handler left, with `pc` moved past the instruction where the handler does not write it
(past HLT too: decision D13, log entry 14). -/
def Obligations.AdvanceAgreesAtEveryValidAssignment : Prop :=
  ∀ c, ValidAssignment c →
    (∀ m ∈ mappedMnemonics c, ∀ s : State, advancePc (opcodeByte c m) s =
      if writesPc m = true then .next s else movePc (s.pc.toNat + (operandCount m + 1)) s .next) ∧
    (∀ (s u : State) (i : Instr), s.run = .running → nextInstr c s = some i → exec i s = .next u → faultOf u = none →
      s.pc.toNat + (operandCount i.mnemonic + 1) ≤ 255 →
      ∃ t, stepWith c s = .next t ∧ (∀ j, t.reg j = u.reg j) ∧ t.fl = u.fl ∧ t.run = u.run ∧ t.mem = u.mem ∧
        t.out = u.out ∧
        (if writesPc i.mnemonic = true then t.pc = u.pc
         else t.pc.toNat = s.pc.toNat + (operandCount i.mnemonic + 1)))

/-! ## The step (40_engine_cycle.md) -/

/-- A step runs the decoded instruction: while Running, with the opcode at 253 or below, when the bytes at `pc` decode to
an instruction (well-formed or not) the step is `exec` of it at that state, completed by the fetched byte. Where the
handler raised, `exec` is the whole step; where it returned, the advance of `pc` follows. -/
def Obligations.StepRunsTheDecodedInstruction : Prop :=
  ∀ (c : Config) (s : State) (i : Instr) (rest : List Byte), s.run = .running → s.pc.toNat ≤ 253 →
    decode c [s.mem.read s.pc.toNat, s.mem.read (s.pc.toNat + 1), s.mem.read (s.pc.toNat + 2)] = .ok (i, rest) →
    stepWith c s = completeStep (s.mem.read s.pc.toNat) (exec i s) ∧
    (∀ u, exec i s = .next u → faultOf u ≠ none → stepWith c s = .next u) ∧
    (∀ u, exec i s = .next u → faultOf u = none → stepWith c s = advancePc (s.mem.read s.pc.toNat) u)

/-- The advance (40_engine_cycle.md R62 and R66) is decided by the fetched byte alone, at every assignment of opcode bytes,
those off the shape constraints (30_encoding.md R51) included: after a handler that returned, bit 4 set leaves `pc` as the
handler left it, and bit 4 clear adds bits 7:6 plus one, where the sum fits `pc`. A handler that does not write `pc` leaves
it where the step started. Where the handler is a jump whose byte is off the shape constraints, that the sum is taken from
its target is log entry 23 (DEDUCED from R51 and R62); that HLT is advanced past is decision D13, log entry 14. -/
def Obligations.AdvanceIsDecidedByTheFetchedByte : Prop :=
  ∀ (c : Config) (s u : State) (i : Instr), s.run = .running → nextInstr c s = some i → exec i s = .next u →
    faultOf u = none →
    let ir := s.mem.read s.pc.toNat
    let n := u.pc.toNat + (ir.extractLsb 7 6).toNat + 1
    (ir.getLsbD 4 = true → stepWith c s = .next u) ∧
    (ir.getLsbD 4 = false → n ≤ 255 → stepWith c s = .next { u with pc := BitVec.ofNat 8 n }) ∧
    (writesPc i.mnemonic = false → u.pc = s.pc)

/-- The advance does not depend on which instruction the byte selects (30_encoding.md section 1): from one state under
two assignments, whatever instructions the byte at `pc` selects in them, if neither handler writes `pc` and neither step
raises a fault, `pc` comes to the same value (HLT counts as such a handler: decision D13, log entry 14). -/
def Obligations.AdvanceDoesNotDependOnTheDispatchTable : Prop :=
  ∀ (c d : Config) (s t u : State) (i j : Instr), nextInstr c s = some i → nextInstr d s = some j →
    writesPc i.mnemonic = false → writesPc j.mnemonic = false →
    stepWith c s = .next t → stepWith d s = .next u → faultOf t = none → faultOf u = none → t.pc = u.pc

/-- The dispatch lookup (R64): the whole byte at `pc` is compared with the keys. If it is a key the step continues with
that key's handler, given both pre-fetched bytes, and is completed by that byte; if not, UnhandledInstruction of that
byte is raised and nothing else has changed. -/
def Obligations.DispatchLooksUpTheWholeByte : Prop :=
  ∀ (c : Config) (s : State), ValidAssignment c → s.run = .running → s.pc.toNat ≤ 253 →
    (∀ m, (s.mem.read s.pc.toNat, m) ∈ dispatchTable c →
      stepWith c s = completeStep (s.mem.read s.pc.toNat)
        (exec (buildInstr (s.mem.read (s.pc.toNat + 1)) (s.mem.read (s.pc.toNat + 2)) m) s)) ∧
    (s.mem.read s.pc.toNat ∉ dispatchKeys c →
      stepWith c s = .next { s with run := .faulted (.unhandledInstruction (s.mem.read s.pc.toNat)) })

/-- A step is enabled if and only if `run` is Running (R61): elsewhere the engine takes no step, ever, so a state reached
from a terminal one is that state itself, and only reset leaves it. -/
def Obligations.StepEnabledExactlyWhileRunning : Prop :=
  (∀ (c : Config) (s : State), (∃ t, stepWith c s = .next t) ↔ s.run = .running) ∧
  (∀ s t, s.run ≠ .running → Reaches s t → t = s) ∧
  (∀ s, (resetPort s).run = .running)

/-- The pre-fetch is unconditional (40_engine_cycle.md, pre-fetch; decisions D2 and D14, log entries 5 and 15): at 254
and 255 every step, whatever the bytes, HLT and unmapped ones included, raises AddressOutOfRange(256) and changes nothing
else. -/
def Obligations.PrefetchFaultsAtTheTopOfMemory : Prop :=
  ∀ (c : Config) (s : State), s.run = .running → 254 ≤ s.pc.toNat →
    stepWith c s = .next { s with run := .faulted (.addressOutOfRange 256) }

/-- Under the default map every opcode byte but the ten raises UnhandledInstruction and changes nothing else, among them
00, FF, the LS-8 family's CALL 50 and RET 11, and ADD's A0 (30_encoding.md section 4; decisions D1, D6 and D7, log entries
1, 2 and 8); with ADD present A0 alone is no longer such a byte. -/
def Obligations.UnmappedBytesAreUnhandled : Prop :=
  ∀ s : State, s.run = .running → s.pc.toNat ≤ 253 →
    (s.mem.read s.pc.toNat ∉ [0x82, 0x47, 0x01, 0xA2, 0xA7, 0x45, 0x46, 0x54, 0x55, 0x56] →
      step s = .next { s with run := .faulted (.unhandledInstruction (s.mem.read s.pc.toNat)) } ∧
      (s.mem.read s.pc.toNat ≠ 0xA0 → stepWith tableConfig s = step s)) ∧
    (s.mem.read s.pc.toNat = 0xA0 →
      stepWith tableConfig s =
        completeStep 0xA0 (exec (.add (s.mem.read (s.pc.toNat + 1)) (s.mem.read (s.pc.toNat + 2))) s))

/-! ## What each instruction does, and that it completes (files 41 to 44)

A register operand is `regByte a` for a register `a`, so each statement holds for every register, 4 and 7 among them. A
handler that does not write `pc` leaves it at the opcode: what the step then makes of `pc` is said by
`AdvanceAgreesAtEveryValidAssignment` and `PcAfterEachInstruction`. -/

/-- LDI completes in every state: the immediate in the register, nothing else changed (41_load_print_halt.md, LDI). -/
def Obligations.LdiCompletes : Prop :=
  ∀ (a : Fin 8) (imm : Byte) (s : State),
    ∃ t, exec (.ldi (regByte a) imm) s = .next t ∧ t.reg a = imm ∧ (∀ j, j ≠ a → t.reg j = s.reg j) ∧
      t.pc = s.pc ∧ t.fl = s.fl ∧ t.run = s.run ∧ t.mem = s.mem ∧ t.out = s.out

/-- PRN completes in every state: the register's byte appended to the output trace (41_load_print_halt.md, PRN; that the
core emits the byte is decision D16, log entry 17). -/
def Obligations.PrnCompletes : Prop :=
  ∀ (a : Fin 8) (s : State),
    ∃ t, exec (.prn (regByte a)) s = .next t ∧ t.out = s.out ++ [s.reg a] ∧ (∀ j, t.reg j = s.reg j) ∧
      t.pc = s.pc ∧ t.fl = s.fl ∧ t.run = s.run ∧ t.mem = s.mem

/-- HLT completes in every state: Halted, nothing else changed (41_load_print_halt.md, HLT). The step then still advances
`pc` (decision D13, log entry 14; `PcAfterEachInstruction`). -/
def Obligations.HltCompletes : Prop :=
  ∀ s : State,
    ∃ t, exec .hlt s = .next t ∧ t.run = .halted ∧ t.pc = s.pc ∧ (∀ j, t.reg j = s.reg j) ∧
      t.fl = s.fl ∧ t.mem = s.mem ∧ t.out = s.out

/-- MUL completes in every state: the product of the old values modulo 256, the flags untouched, also when both operands
are one register (42_alu.md, MUL). -/
def Obligations.MulCompletes : Prop :=
  ∀ (a b : Fin 8) (s : State),
    ∃ t, exec (.mul (regByte a) (regByte b)) s = .next t ∧
      (t.reg a).toNat = (s.reg a).toNat * (s.reg b).toNat % 256 ∧ (∀ j, j ≠ a → t.reg j = s.reg j) ∧
      t.pc = s.pc ∧ t.fl = s.fl ∧ t.run = s.run ∧ t.mem = s.mem ∧ t.out = s.out

/-- ADD completes likewise: the sum of the old values modulo 256, the carry discarded (42_alu.md, ADD; its shape is
decision D7, log entry 26). -/
def Obligations.AddCompletes : Prop :=
  ∀ (a b : Fin 8) (s : State),
    ∃ t, exec (.add (regByte a) (regByte b)) s = .next t ∧
      (t.reg a).toNat = ((s.reg a).toNat + (s.reg b).toNat) % 256 ∧ (∀ j, j ≠ a → t.reg j = s.reg j) ∧
      t.pc = s.pc ∧ t.fl = s.fl ∧ t.run = s.run ∧ t.mem = s.mem ∧ t.out = s.out

/-- CMP completes likewise: Equal set if the two registers are equal and cleared if not, the other bits of the flags kept,
no register written (42_alu.md, CMP). -/
def Obligations.CmpCompletes : Prop :=
  ∀ (a b : Fin 8) (s : State),
    ∃ t, exec (.cmp (regByte a) (regByte b)) s = .next t ∧ (equalFlag t.fl = true ↔ s.reg a = s.reg b) ∧
      reservedFlags t.fl = reservedFlags s.fl ∧ (∀ j, t.reg j = s.reg j) ∧
      t.pc = s.pc ∧ t.run = s.run ∧ t.mem = s.mem ∧ t.out = s.out

/-- PUSH completes when the stack pointer is above the boundary, down to the push that makes the two equal: the pointer
one lower, the source's byte in the cell it then points at, every other cell as before (43_stack.md, PUSH). PUSH R7 stores
the decremented pointer (decision D11, log entry 12); the boundary is the live register 4 (D5, log entry 7). The Memory
is in canonical form, an invariant of the machine (`InvariantKeptByEveryStep`). -/
def Obligations.PushCompletes : Prop :=
  ∀ (a : Fin 8) (s : State), s.mem.wf → (s.reg boundIndex).toNat < (s.reg spIndex).toNat →
    ∃ t, exec (.push (regByte a)) s = .next t ∧
      (t.reg spIndex).toNat = (s.reg spIndex).toNat - 1 ∧ (∀ j, j ≠ spIndex → t.reg j = s.reg j) ∧
      t.mem.read ((s.reg spIndex).toNat - 1) = (if a = spIndex then t.reg spIndex else s.reg a) ∧
      (∀ addr, addr ≠ (s.reg spIndex).toNat - 1 → t.mem.read addr = s.mem.read addr) ∧
      t.pc = s.pc ∧ t.fl = s.fl ∧ t.run = s.run ∧ t.out = s.out

/-- POP completes in every state and never underflows: the byte at the stack pointer in the register,
the pointer one higher only if strictly below F4 (43_stack.md, POP). POP R7 applies the test to the byte it loaded
(decision D11, log entry 12). -/
def Obligations.PopCompletes : Prop :=
  ∀ (a : Fin 8) (s : State),
    ∃ t, exec (.pop (regByte a)) s = .next t ∧
      (a ≠ spIndex → t.reg a = s.mem.read (s.reg spIndex).toNat) ∧
      (let sp := if a = spIndex then s.mem.read (s.reg spIndex).toNat else s.reg spIndex
       (t.reg spIndex).toNat = if sp.toNat < 0xF4 then sp.toNat + 1 else sp.toNat) ∧
      (∀ j, j ≠ a → j ≠ spIndex → t.reg j = s.reg j) ∧
      t.pc = s.pc ∧ t.fl = s.fl ∧ t.run = s.run ∧ t.mem = s.mem ∧ t.out = s.out

/-- JMP completes in every state, whatever the target: `pc` is the register's byte (44_branch.md, JMP). -/
def Obligations.JmpCompletes : Prop :=
  ∀ (a : Fin 8) (s : State), ∃ t, exec (.jmp (regByte a)) s = .next t ∧ t.pc = s.reg a ∧ (∀ j, t.reg j = s.reg j) ∧
    t.fl = s.fl ∧ t.run = s.run ∧ t.mem = s.mem ∧ t.out = s.out

/-- JEQ completes at every address a handler runs at, on both paths: with Equal set `pc` is the register's byte, with
Equal clear it is two further, nothing else changed (44_branch.md, JEQ). -/
def Obligations.JeqCompletes : Prop :=
  ∀ (a : Fin 8) (s : State), s.pc.toNat ≤ 253 →
    ∃ t, exec (.jeq (regByte a)) s = .next t ∧
      (if equalFlag s.fl = true then t.pc = s.reg a else t.pc.toNat = s.pc.toNat + 2) ∧ (∀ j, t.reg j = s.reg j) ∧
      t.fl = s.fl ∧ t.run = s.run ∧ t.mem = s.mem ∧ t.out = s.out

/-- JNE completes likewise on the opposite paths: with Equal clear `pc` is the register's byte, with Equal set it is two
further (44_branch.md, JNE). -/
def Obligations.JneCompletes : Prop :=
  ∀ (a : Fin 8) (s : State), s.pc.toNat ≤ 253 →
    ∃ t, exec (.jne (regByte a)) s = .next t ∧
      (if equalFlag s.fl = true then t.pc.toNat = s.pc.toNat + 2 else t.pc = s.reg a) ∧ (∀ j, t.reg j = s.reg j) ∧
      t.fl = s.fl ∧ t.run = s.run ∧ t.mem = s.mem ∧ t.out = s.out

/-- `pc` after a step that raises no fault, for every instruction and every operand, at every valid assignment: three,
two or one further, the register's byte for a taken jump, with nothing added afterwards (10_state.md section 3; HLT's
row is decision D13, log entry 14). -/
def Obligations.PcAfterEachInstruction : Prop :=
  ∀ (c : Config) (i : Instr) (s t : State), ValidAssignment c → nextInstr c s = some i → stepWith c s = .next t →
    faultOf t = none →
    match i with
    | .ldi _ _ | .mul _ _ | .cmp _ _ | .add _ _ => t.pc.toNat = s.pc.toNat + 3
    | .prn _ | .push _ | .pop _ => t.pc.toNat = s.pc.toNat + 2
    | .hlt => t.pc.toNat = s.pc.toNat + 1
    | .jmp ra => ∃ a, ra = regByte a ∧ t.pc = s.reg a
    | .jeq ra => ∃ a, ra = regByte a ∧
        if equalFlag s.fl = true then t.pc = s.reg a else t.pc.toNat = s.pc.toNat + 2
    | .jne ra => ∃ a, ra = regByte a ∧
        if equalFlag s.fl = true then t.pc.toNat = s.pc.toNat + 2 else t.pc = s.reg a

/-! ## Frames -/

/-- What LDI, MUL and ADD leave unchanged, with any operand bytes: every register but the one operand a names, the
flags, `pc`, the output, every byte of memory; `run` is as before or has recorded a fault. -/
def Obligations.RegisterWritersFrame : Prop :=
  ∀ (ra rb : Byte) (i : Instr) (s t : State), i = .ldi ra rb ∨ i = .mul ra rb ∨ i = .add ra rb → exec i s = .next t →
    (∀ j, regByte j ≠ ra → t.reg j = s.reg j) ∧ t.fl = s.fl ∧ t.pc = s.pc ∧ t.out = s.out ∧
    (∀ addr, t.mem.read addr = s.mem.read addr) ∧ (t.run = s.run ∨ ∃ f, t.run = .faulted f)

/-- What PRN, HLT, CMP, JMP, JEQ and JNE leave unchanged, with any operand bytes: every register, every byte of memory, the
reserved flags; all of the flags but for CMP, the output but for PRN, `run` but for HLT and a fault. -/
def Obligations.RegisterReadersFrame : Prop :=
  ∀ (ra rb : Byte) (i : Instr) (s t : State),
    i = .prn ra ∨ i = .hlt ∨ i = .cmp ra rb ∨ i = .jmp ra ∨ i = .jeq ra ∨ i = .jne ra → exec i s = .next t →
    (∀ j, t.reg j = s.reg j) ∧ (∀ addr, t.mem.read addr = s.mem.read addr) ∧
    reservedFlags t.fl = reservedFlags s.fl ∧ (i ≠ .cmp ra rb → t.fl = s.fl) ∧ (i ≠ .prn ra → t.out = s.out) ∧
    (i = .prn ra ∨ i = .hlt ∨ i = .cmp ra rb → t.pc = s.pc) ∧
    (t.run = s.run ∨ (i = .hlt ∧ t.run = .halted) ∨ ∃ f, t.run = .faulted f)

/-- What PUSH leaves unchanged, with any operand byte: every register but the stack pointer, the flags, `pc`, the
output, and every byte of memory but the one at the address the meaning itself computes, the decremented stack pointer.
-/
def Obligations.PushFrame : Prop :=
  ∀ (ra : Byte) (s t : State), exec (.push ra) s = .next t →
    (∀ j, j ≠ spIndex → t.reg j = s.reg j) ∧ t.fl = s.fl ∧ t.pc = s.pc ∧ t.out = s.out ∧
    (∀ a, pushAddress s = a → ∀ addr, addr ≠ a → t.mem.read addr = s.mem.read addr) ∧
    (t.run = s.run ∨ ∃ f, t.run = .faulted f)

/-- What POP leaves unchanged, with any operand byte: every register but the destination and the stack pointer, the
flags, `pc`, the output, every byte of memory. -/
def Obligations.PopFrame : Prop :=
  ∀ (ra : Byte) (s t : State), exec (.pop ra) s = .next t →
    (∀ j, j ≠ spIndex → regByte j ≠ ra → t.reg j = s.reg j) ∧ t.fl = s.fl ∧ t.pc = s.pc ∧ t.out = s.out ∧
    (∀ addr, t.mem.read addr = s.mem.read addr) ∧ (t.run = s.run ∨ ∃ f, t.run = .faulted f)

/-! ## Whole-machine rules -/

/-- The flags have one writer and two readers (R18): only CMP writes them, bit 0 and nothing else; the rest of what an
instruction does is the same for any flags, for JEQ and JNE for any flags with the same bit 0; nor does the result the
host reads depend on them. -/
def Obligations.FlagsHaveOneWriterAndTwoReaders : Prop :=
  ∀ (i : Instr) (s t : State), exec i s = .next t →
    (t.fl = s.fl ∨ ((∃ ra rb, i = .cmp ra rb) ∧ reservedFlags t.fl = reservedFlags s.fl)) ∧
    (∀ f : Byte, (equalFlag f = equalFlag s.fl ∨ ∀ ra, i ≠ .jeq ra ∧ i ≠ .jne ra) →
      ∃ g, exec i { s with fl := f } = .next { t with fl := g }) ∧
    (∀ f : Byte, runResult { s with fl := f } = runResult s)

/-- The output trace (R23): empty at reset, only PRN appends, one byte, the register's; nothing removes, and no instruction
reads it: from any other trace the instruction does the same and appends the same. -/
def Obligations.OutputIsAppendOnlyAndUnread : Prop :=
  State.reset.out = [] ∧
  ∀ (i : Instr) (s t : State), exec i s = .next t →
    ∃ e : List Byte, t.out = s.out ++ e ∧ (e = [] ∨ ∃ a, i = .prn (regByte a) ∧ e = [s.reg a]) ∧
      ∀ o, exec i { s with out := o } = .next { t with out := o ++ e }

/-- PUSH is the only store, it stores one byte, and no step ever writes below register 4 as it stood (20_memory.md section
3; 43_stack.md, consequences (a)). -/
def Obligations.OnlyPushStoresAndNeverBelowTheBoundary : Prop :=
  ∀ (c : Config) (s t : State), stepWith c s = .next t →
    ((∀ addr, t.mem.read addr = s.mem.read addr) ∨
      ((∃ ra, nextInstr c s = some (.push ra)) ∧ ∀ addr, addr ≠ pushAddress s → t.mem.read addr = s.mem.read addr)) ∧
    ∀ addr, addr < (s.reg boundIndex).toNat → t.mem.read addr = s.mem.read addr

/-- A step keeps the invariant of the machine, at every assignment of opcode bytes: the Memory stays in its canonical form
and the reserved bits of the flags stay 0 (10_state.md section 4). -/
def Obligations.InvariantKeptByEveryStep : Prop :=
  ∀ (c : Config) (s t : State), Inv s → stepWith c s = .next t → Inv t

/-- The invariant of the machine holds at reset. -/
def Obligations.InvariantHoldsAtReset : Prop := Inv State.reset

/-- The stack discipline (43_stack.md, consequences (b)), from every state that has it: a step whose instruction does not
name register 4 or 7 as its destination keeps `n <= SP <= F4` and the boundary at `n`, and writes no cell of the image. -/
def Obligations.StackDisciplineKeptByEveryStep : Prop :=
  ∀ (c : Config) (n : Nat) (s t : State), StackInv n s → (∀ i, nextInstr c s = some i → keepsStackRegisters i) →
    stepWith c s = .next t → StackInv n t ∧ ∀ addr, addr < n → t.mem.read addr = s.mem.read addr

/-- A run has at most one end (40_engine_cycle.md, end of a run; 70_reset_and_hazards.md section 3, determinism). -/
def Obligations.RunEndsInAtMostOneState : Prop :=
  ∀ s t u : State, EndsAt s t → EndsAt s u → t = u

/-- A step that PUSHes one register, then a step that POPs into another: the byte and the stack pointer come back
(43_stack.md, consequences (b), under the premises of 90_conflicts.md C8). That the second step runs the POP is a premise
on the state the first leaves, since a push can overwrite the next instruction. -/
def Obligations.PushThenPopRoundTrips : Prop :=
  ∀ (c : Config) (a b : Fin 8) (s : State), ValidAssignment c → a ≠ spIndex → b ≠ spIndex → s.mem.wf → s.run = .running →
    (s.reg boundIndex).toNat < (s.reg spIndex).toNat → (s.reg spIndex).toNat ≤ 0xF4 →
    nextInstr c s = some (.push (regByte a)) →
    ∃ t, stepWith c s = .next t ∧ t.pc.toNat = s.pc.toNat + 2 ∧
      (nextInstr c t = some (.pop (regByte b)) →
        ∃ u, stepWith c t = .next u ∧ u.pc.toNat = s.pc.toNat + 4 ∧
          u.reg b = s.reg a ∧ u.reg spIndex = s.reg spIndex)

/-- A step that runs CMP decides the JEQ or JNE the next step runs: it goes to the register's address or two further, by
whether the compared registers were equal (42_alu.md section 1; 44_branch.md). -/
def Obligations.CompareDecidesTheBranch : Prop :=
  ∀ (c : Config) (a b d : Fin 8) (s : State), ValidAssignment c → s.run = .running → s.pc.toNat ≤ 252 →
    nextInstr c s = some (.cmp (regByte a) (regByte b)) →
    ∃ t, stepWith c s = .next t ∧
      (nextInstr c t = some (.jeq (regByte d)) →
        ∃ u, stepWith c t = .next u ∧
          if s.reg a = s.reg b then u.pc = s.reg d else u.pc.toNat = s.pc.toNat + 5) ∧
      (nextInstr c t = some (.jne (regByte d)) →
        ∃ u, stepWith c t = .next u ∧
          if s.reg a = s.reg b then u.pc.toNat = s.pc.toNat + 5 else u.pc = s.reg d)

/-- A pushed byte is executed as stored (20_memory.md section 7, fetch coherence): after the PUSH, a fetch at the address
it stored to reads the byte it stored as the opcode. -/
def Obligations.PushedByteIsFetched : Prop :=
  ∀ (a : Fin 8) (s t : State) (k : Byte → Byte → Byte → Result), s.mem.wf → a ≠ spIndex →
    (s.reg boundIndex).toNat < (s.reg spIndex).toNat → (s.reg spIndex).toNat ≤ 254 →
    exec (.push (regByte a)) s = .next t →
    fetch { t with pc := t.reg spIndex } k =
      k (s.reg a) (s.mem.read (s.reg spIndex).toNat) (s.mem.read ((s.reg spIndex).toNat + 1))

/-! ## Faults (60_exceptions.md) -/

/-- A register operand above 7 raises InvalidRegisterIndex of that byte before any state change, operand a first, also on
a branch not taken and on a full stack (60_exceptions.md section 1; decisions D3 and D10, log entries 6 and 11). -/
def Obligations.IllegalRegisterOperandFaultsFirst : Prop :=
  ∀ (i : Instr) (v : Byte) (s : State), (registerOperands i).find? (fun w => decide (7 < w.toNat)) = some v →
    exec i s = .next { s with run := .faulted (.invalidRegisterIndex v) }

/-- StackOverflow (R103): raised by PUSH, and by nothing else, when `SP - 1 >= boundary` is false, with both as they
stood; nothing but `run` changes, so the dump shows the state before the failing PUSH. -/
def Obligations.StackOverflowFaultsPreciselyAndOnlyInPush : Prop :=
  (∀ (a : Fin 8) (s : State), ¬((s.reg spIndex).toNat : Int) - 1 ≥ ((s.reg boundIndex).toNat : Int) →
    exec (.push (regByte a)) s =
      .next { s with run := .faulted (.stackOverflow (s.reg spIndex) (s.reg boundIndex)) }) ∧
  (∀ (i : Instr) (s t : State) (sp bound : Byte), s.run = .running → exec i s = .next t →
    t.run = .faulted (.stackOverflow sp bound) →
    (∃ a, i = .push (regByte a)) ∧ ¬((s.reg spIndex).toNat : Int) - 1 ≥ ((s.reg boundIndex).toNat : Int) ∧
      sp = s.reg spIndex ∧ bound = s.reg boundIndex ∧ dump t = dump s)

/-- An advance that does not fit `pc` (40_engine_cycle.md, PC advance; decision D9, log entry 10), at every assignment of
opcode bytes: what the handler did stands, `pc` stays as it left it, and AddressOutOfRange of the sum is raised. Where the
handler is a jump whose byte is off the shape constraints, that the sum is taken from its target is log entry 23. -/
def Obligations.AdvanceThatDoesNotFitFaults : Prop :=
  ∀ (c : Config) (s u : State) (i : Instr), s.run = .running → nextInstr c s = some i → exec i s = .next u →
    faultOf u = none →
    let ir := s.mem.read s.pc.toNat
    let n := u.pc.toNat + (ir.extractLsb 7 6).toNat + 1
    ir.getLsbD 4 = false → 255 < n → stepWith c s = .next { u with run := .faulted (.addressOutOfRange n) }

/-- The advance past the top of memory (40_engine_cycle.md, PC advance; decision D9, log entry 10): at every valid
assignment a step that runs a three-byte instruction at 253 keeps its register or flag write, `pc` keeps its old value,
and AddressOutOfRange(256) is raised. -/
def Obligations.AdvanceFaultKeepsTheEffects : Prop :=
  ∀ (c : Config) (a b : Fin 8) (imm : Byte) (s : State), ValidAssignment c → s.run = .running → s.pc.toNat = 253 →
    let faults := fun t : State => stepWith c s = .next t ∧ t.run = .faulted (.addressOutOfRange 256) ∧ t.pc = s.pc
    (nextInstr c s = some (.ldi (regByte a) imm) → ∃ t, faults t ∧ t.reg a = imm) ∧
    (nextInstr c s = some (.mul (regByte a) (regByte b)) →
      ∃ t, faults t ∧ (t.reg a).toNat = (s.reg a).toNat * (s.reg b).toNat % 256) ∧
    (nextInstr c s = some (.add (regByte a) (regByte b)) →
      ∃ t, faults t ∧ (t.reg a).toNat = ((s.reg a).toNat + (s.reg b).toNat) % 256) ∧
    (nextInstr c s = some (.cmp (regByte a) (regByte b)) →
      ∃ t, faults t ∧ (equalFlag t.fl = true ↔ s.reg a = s.reg b))

/-- At every valid assignment a step raises exactly the first fault of the spec's list, read off the state without the
meanings, and none where the list gives none (60_exceptions.md section 3; decision D10, log entry 11). -/
def Obligations.StepRaisesTheFirstFaultOfTheList : Prop :=
  ∀ (c : Config) (s t : State), ValidAssignment c → stepWith c s = .next t → faultOf t = firstFault c s

/-- Faults are precise (60_exceptions.md section 4; decision D15, log entry 16), at every valid assignment: `pc` still
holds the opcode's address, and away from 253, where the advance can fault, the faulting step has changed nothing but
`run`. -/
def Obligations.FaultsArePrecise : Prop :=
  ∀ (c : Config) (s t : State) (f : FatalCondition), ValidAssignment c → stepWith c s = .next t → t.run = .faulted f →
    t.pc = s.pc ∧ (s.pc.toNat ≠ 253 → t = { s with run := .faulted f })

/-- What a program must do is enough for a step to raise nothing (70_reset_and_hazards.md section 2), at every valid
assignment: from a Running state at 252 or below (253 for an instruction of one or two bytes), with a mapped opcode,
legal register operands and, for PUSH, room above the boundary, the step answers a next state in which no fault is
recorded. It rests on the faults the spec decided (log entries 5, 6 and 10). -/
def Obligations.ProgramObligationsMakeAStepSafe : Prop :=
  ∀ (c : Config) (s : State) (i : Instr), ValidAssignment c → s.run = .running → nextInstr c s = some i →
    i.wellFormed = true → s.pc.toNat + i.operands.length ≤ 254 →
    (isPush i = true → (s.reg boundIndex).toNat < (s.reg spIndex).toNat) →
    ∃ t, stepWith c s = .next t ∧ Safe t

/-- UnsupportedOperation (R106): the ALU raises it for a selector it does not recognise, and no byte, operand or program
can: no instruction from a running state and no step ends in it. -/
def Obligations.UnsupportedOperationIsUnreachable : Prop :=
  (∀ (name : String) (a b : Fin 8) (s : State) (k : State → Result),
    alu (.other name) a b s k = .next { s with run := .faulted (.unsupportedOperation (.other name)) }) ∧
  (∀ (c : Config) (s t : State) (sel : AluSelector), stepWith c s = .next t →
    t.run ≠ .faulted (.unsupportedOperation sel))

/-! ## Arithmetic (42_alu.md) -/

/-- The ALU's laws (42_alu.md section 1): MULTIPLY and ADD give the low 8 bits of the exact result, the same whether the
operands are read as unsigned or as two's complement (the spec's own inference). -/
def Obligations.AluKeepsTheLowEightBits : Prop :=
  ∀ x y : Byte,
    (multiplyBytes x y).toNat = x.toNat * y.toNat % 256 ∧ (addBytes x y).toNat = (x.toNat + y.toNat) % 256 ∧
    multiplyBytes x y = BitVec.ofInt 8 (x.toInt * y.toInt) ∧ addBytes x y = BitVec.ofInt 8 (x.toInt + y.toInt)

/-! ## Memory, reset, load and status (20_memory.md, 45_host_interface.md, 70_reset_and_hazards.md) -/

/-- Two Memories in canonical form that read the same at the 256 addresses are one: the list form adds nothing to the
256 cells (20_memory.md section 1; the model's representation, log entry 24). -/
def Obligations.CanonicalMemoryIsDeterminedByItsCells : Prop :=
  ∀ m n : Memory, m.wf → n.wf → (∀ addr, addr < 256 → m.read addr = n.read addr) → m = n

/-- What reset leaves, whatever the state held and whatever value the unstated registers have: memory zero-filled, the
stack pointer at F4, `pc` 0, the flags 0, Running, nothing emitted (10_state.md section 9). The machine's own reset takes
0 for the seven registers whose reset value the source does not state: the spec's choice D4, log entry 4. -/
def Obligations.ResetLeavesTheSpecsValues : Prop :=
  ∀ (s : State) (gpr : Byte), resetPort s = State.resetWith 0 ∧
    (∀ addr, (State.resetWith gpr).mem.read addr = 0) ∧
    (∀ j, (State.resetWith gpr).reg j = if j = spIndex then 0xF4 else gpr) ∧
    (State.resetWith gpr).pc = 0 ∧ (State.resetWith gpr).fl = 0 ∧ (State.resetWith gpr).run = .running ∧
    (State.resetWith gpr).out = []

/-- Load (R94): image byte `k` at address `k`, the length in register 4, also when it is 0; no memory cell at or above the
length, no other register, not `pc`, the flags, `run` or the output. The Memory is in canonical form, an invariant of the
machine. -/
def Obligations.LoadWritesTheImageAndItsLength : Prop :=
  ∀ (image : List Byte) (s : State), s.mem.wf → image.length ≤ 255 →
    (∀ (k : Nat) (h : k < image.length), (loadImage image s).mem.read k = image[k]) ∧
    (∀ addr, image.length ≤ addr → (loadImage image s).mem.read addr = s.mem.read addr) ∧
    ((loadImage image s).reg boundIndex).toNat = image.length ∧
    (∀ j, j ≠ boundIndex → (loadImage image s).reg j = s.reg j) ∧
    (loadImage image s).pc = s.pc ∧ (loadImage image s).fl = s.fl ∧ (loadImage image s).run = s.run ∧
    (loadImage image s).out = s.out

/-- The launch state (45_host_interface.md, launch state; the zero registers are decision D4, log entry 4, and the bound
on the length decision D12, log entry 13): the image from address 0 and zeros above it, its length in register 4; it
meets the machine's invariant and, where the image ends at or below the stack head, the stack discipline. A longer image
and an unreadable one have no launch state. -/
def Obligations.LaunchStateOfAnImage : Prop :=
  (∀ image : List Byte, image.length ≤ 255 → ∃ t, launch (some image) = .ok t ∧
    (∀ (k : Nat) (h : k < image.length), t.mem.read k = image[k]) ∧
    (∀ addr, image.length ≤ addr → t.mem.read addr = 0) ∧ (t.reg boundIndex).toNat = image.length ∧
    t.reg spIndex = 0xF4 ∧ (∀ j, j ≠ boundIndex → j ≠ spIndex → t.reg j = 0) ∧
    t.pc = 0 ∧ t.fl = 0 ∧ t.run = .running ∧ t.out = [] ∧ Inv t ∧
    (image.length ≤ 0xF4 → StackInv image.length t)) ∧
  (∀ image : List Byte, 255 < image.length → launch (some image) = .error (.imageTooLong image.length)) ∧
  launch none = .error .loadFailure

/-- The status codes tell the ends of a run apart (45_host_interface.md, status; the numbers are decision D8, log entry
9): none while Running, 0 exactly for a normal halt, and two faults have one code exactly when they are one kind of fault;
no fault of the core has the code of a failed load. -/
def Obligations.StatusCodesTellTheEndsApart : Prop :=
  (∀ r, statusCode r = none ↔ r = .running) ∧ (∀ r, statusCode r = some 0 ↔ r = .halted) ∧
  (∀ r, statusCode r ≠ loadErrorCode .loadFailure) ∧
  (∀ op g, faultCode g = faultCode (.unhandledInstruction op) ↔ ∃ op', g = .unhandledInstruction op') ∧
  (∀ sp b g, faultCode g = faultCode (.stackOverflow sp b) ↔ ∃ sp' b', g = .stackOverflow sp' b') ∧
  (∀ n g, faultCode g = faultCode (.addressOutOfRange n) ↔ ∃ n', g = .addressOutOfRange n') ∧
  (∀ v g, faultCode g = faultCode (.invalidRegisterIndex v) ↔ ∃ v', g = .invalidRegisterIndex v') ∧
  (∀ l g, faultCode g = faultCode (.unsupportedOperation l) ↔ ∃ l', g = .unsupportedOperation l')
end

