-- ==== Sys2Proof/Laws/Decode.lean ====
section
/-! SUPPORT. The dispatch lookup and the decoder: what a hit says, and that distinct keys find their own row. -/

namespace Sys2Proof

theorem mem_of_lookup {α β : Type} [BEq α] [LawfulBEq α] {l : List (α × β)} {a : α} {b : β}
    (h : l.lookup a = some b) : (a, b) ∈ l := by
  induction l with
  | nil => cases h
  | cons p l ih =>
    obtain ⟨k, v⟩ := p
    by_cases hk : a = k
    · rw [hk, List.lookup_cons_self] at h
      cases h
      simp [hk]
    · have hne : (a == k) = false := beq_eq_false_iff_ne.2 hk
      rw [List.lookup_cons, hne] at h
      exact List.mem_cons_of_mem _ (ih h)

theorem lookup_of_mem {α β : Type} [BEq α] [LawfulBEq α] {l : List (α × β)} {a : α} {b : β}
    (hd : (l.map Prod.fst).Nodup) (h : (a, b) ∈ l) : l.lookup a = some b := by
  induction l with
  | nil => cases h
  | cons p l ih =>
    rw [List.map_cons, List.nodup_cons] at hd
    rcases List.mem_cons.1 h with rfl | h
    · simp
    · have hne : (a == p.1) = false := by
        rw [beq_eq_false_iff_ne]
        rintro rfl
        exact hd.1 (List.mem_map.2 ⟨_, h, rfl⟩)
      rw [List.lookup_cons, hne]
      exact ih hd.2 h

/-- A byte the lookup finds is the opcode byte of the instruction it gives, and that instruction is mapped. -/
theorem lookupOpcode_some {c : Config} {op : Byte} {m : Mnemonic} (h : lookupOpcode c op = some m) :
    op = opcodeByte c m ∧ m ∈ mappedMnemonics c := by
  obtain ⟨n, hn, he⟩ := List.mem_map.1 (mem_of_lookup h)
  cases he
  exact ⟨rfl, hn⟩

/-- With distinct keys every mapped instruction is found by its own byte. -/
theorem lookupOpcode_opcodeByte {c : Config} {m : Mnemonic} (hd : (dispatchKeys c).Nodup)
    (hm : m ∈ mappedMnemonics c) : lookupOpcode c (opcodeByte c m) = some m :=
  lookup_of_mem hd (List.mem_map.2 ⟨m, hm, rfl⟩)

/-- A byte is not found exactly when it is no key. -/
theorem lookupOpcode_none {c : Config} {op : Byte} : lookupOpcode c op = none ↔ op ∉ dispatchKeys c := by
  rw [lookupOpcode, List.lookup_eq_none_iff, dispatchKeys]
  constructor
  · rintro h hk
    obtain ⟨p, hp, rfl⟩ := List.mem_map.1 hk
    simpa using h p hp
  · intro h p hp
    by_contra hne
    have he : op = p.1 := by simpa using hne
    exact h (List.mem_map.2 ⟨p, hp, he.symm⟩)

@[simp] theorem buildInstr_mnemonic (a b : Byte) (m : Mnemonic) : (buildInstr a b m).mnemonic = m := by
  cases m <;> rfl

/-- The operand bytes of an instruction are what its format takes from the bytes after the opcode. -/
theorem takeOperands_operands (i : Instr) (rest : List Byte) :
    takeOperands i.mnemonic (i.operands ++ rest) = .ok (i, rest) := by
  cases i <;> rfl

/-- Bytes taken as operands are the operands of the instruction they give. -/
theorem takeOperands_ok {m : Mnemonic} {bs rest : List Byte} {i : Instr} (h : takeOperands m bs = .ok (i, rest)) :
    i.mnemonic = m ∧ bs = i.operands ++ rest := by
  cases m <;> rcases bs with _ | ⟨a, _ | ⟨b, bs⟩⟩ <;>
    simp_all [takeOperands, operandCount, buildInstr] <;> (obtain ⟨rfl, rfl⟩ := h; exact ⟨rfl, rfl⟩)

/-- What the engine makes of three fetched bytes: the handler of the first with both others. -/
theorem decodeFetched_eq (c : Config) (ir opa opb : Byte) :
    decodeFetched c ir opa opb = (lookupOpcode c ir).map (buildInstr opa opb) := by
  rw [decodeFetched, decode]
  cases lookupOpcode c ir with
  | none => rfl
  | some m => cases m <;> rfl

end Sys2Proof
end

