-- ==== Sys2Proof/Laws/Memory.lean ====
section
/-! SUPPORT. The Memory: what a read gives after a write, and that every operation keeps the canonical form. -/

namespace Sys2Proof.Machine

/-! ## Reads -/

@[simp] theorem Memory.read_nil (a : Nat) : Memory.read [] a = Memory.unlisted := rfl

theorem Memory.read_cell (b : Nat) (w : Byte) (m : Memory) (a : Nat) :
    Memory.read ((b, w) :: m) a = if a = b then w else Memory.read m a := by
  by_cases h : a = b
  · simp [Memory.read, h]
  · have hab : (a == b) = false := by simp [h]
    simp [Memory.read, List.lookup_cons, hab, h]

/-- Below every listed address the Memory holds the reset value. -/
theorem Memory.read_below (m : Memory) (a : Nat) (h : ∀ p ∈ m, a < p.1) : Memory.read m a = Memory.unlisted := by
  induction m with
  | nil => rfl
  | cons p m ih =>
    obtain ⟨b, w⟩ := p
    have hb : a < b := h (b, w) (by simp)
    rw [Memory.read_cell, if_neg (by omega)]
    exact ih fun q hq => h q (by simp [hq])

theorem Memory.read_cons (a : Nat) (v : Byte) (m : Memory) (b : Nat) (h : ∀ p ∈ m, a < p.1) :
    Memory.read (Memory.cons a v m) b = if b = a then v else Memory.read m b := by
  unfold Memory.cons
  split
  · next hv =>
    split
    · next hb => rw [hb, Memory.read_below m a h, hv]
    · rfl
  · rw [Memory.read_cell]

/-! ## The canonical form -/

theorem Memory.wf_nil : Memory.wf [] := by simp [Memory.wf]

theorem Memory.wf_tail {b : Nat} {w : Byte} {m : Memory} (h : Memory.wf ((b, w) :: m)) :
    m.wf ∧ ∀ p ∈ m, b < p.1 := by
  obtain ⟨h1, h2⟩ := h
  rw [List.pairwise_cons] at h1
  exact ⟨⟨h1.2, fun p hp => h2 p (by simp [hp])⟩, h1.1⟩

theorem Memory.wf_cell {b : Nat} {w : Byte} {m : Memory} (hm : m.wf) (hlt : ∀ p ∈ m, b < p.1) (hb : b < 256)
    (hw : w ≠ Memory.unlisted) : Memory.wf ((b, w) :: m) := by
  refine ⟨List.pairwise_cons.2 ⟨hlt, hm.1⟩, fun p hp => ?_⟩
  rcases List.mem_cons.1 hp with rfl | hp
  · exact ⟨hb, hw⟩
  · exact hm.2 p hp

theorem Memory.wf_cons {a : Nat} {v : Byte} {m : Memory} (hm : m.wf) (hlt : ∀ p ∈ m, a < p.1) (ha : a < 256) :
    (Memory.cons a v m).wf := by
  unfold Memory.cons
  split
  · exact hm
  · next hv => exact Memory.wf_cell hm hlt ha hv

theorem Memory.mem_cons {a : Nat} {v : Byte} {m : Memory} {p : Host.Cell} (h : p ∈ Memory.cons a v m) :
    p = (a, v) ∨ p ∈ m := by
  unfold Memory.cons at h
  split at h
  · exact .inr h
  · exact List.mem_cons.1 h

/-- A cell of a written Memory is the one written or was there before. -/
theorem Memory.mem_write {m : Memory} {a : Nat} {v : Byte} {p : Host.Cell} (h : p ∈ m.write a v) :
    p = (a, v) ∨ p ∈ m := by
  induction m with
  | nil => exact Memory.mem_cons h
  | cons q m ih =>
    obtain ⟨b, w⟩ := q
    unfold Memory.write at h
    split at h
    · exact Memory.mem_cons h
    · split at h
      · exact (Memory.mem_cons h).imp_right (List.mem_cons_of_mem _)
      · rcases List.mem_cons.1 h with rfl | h
        · exact .inr (by simp)
        · exact (ih h).imp_right (List.mem_cons_of_mem _)

/-- A write inside the address space keeps the canonical form. -/
theorem Memory.write_wf {m : Memory} {a : Nat} (v : Byte) (hm : m.wf) (ha : a < 256) : (m.write a v).wf := by
  induction m with
  | nil => exact Memory.wf_cons Memory.wf_nil (by simp) ha
  | cons p m ih =>
    obtain ⟨b, w⟩ := p
    obtain ⟨ht, hlt⟩ := Memory.wf_tail hm
    unfold Memory.write
    split
    · next hab =>
      refine Memory.wf_cons hm (fun q hq => ?_) ha
      rcases List.mem_cons.1 hq with rfl | hq
      · exact hab
      · exact lt_trans hab (hlt q hq)
    · split
      · next hab => subst hab; exact Memory.wf_cons ht hlt ha
      · next h1 h2 =>
        have := hm.2 (b, w) (by simp)
        refine Memory.wf_cell (ih ht) (fun q hq => ?_) this.1 this.2
        rcases Memory.mem_write hq with rfl | hq
        · show b < a; omega
        · exact hlt q hq

/-- Storing bytes upwards keeps the canonical form. -/
theorem Memory.writeFrom_wf (vs : List Byte) (m : Memory) (a : Nat) (hm : m.wf) : (m.writeFrom a vs).wf := by
  induction vs generalizing m a with
  | nil => exact hm
  | cons v vs ih =>
    unfold Memory.writeFrom
    apply ih
    split
    · exact Memory.write_wf v hm (by omega)
    · exact hm

/-! ## Read after write -/

/-- A write leaves every other cell alone, in any list. -/
theorem Memory.read_write_ne (m : Memory) {a b : Nat} (v : Byte) (h : b ≠ a) :
    (m.write a v).read b = m.read b := by
  have hc : ∀ n : Memory, (Memory.cons a v n).read b = n.read b := fun n => by
    unfold Memory.cons; split
    · rfl
    · rw [Memory.read_cell, if_neg h]
  induction m with
  | nil => exact hc []
  | cons p m ih =>
    obtain ⟨c, w⟩ := p
    unfold Memory.write
    split
    · exact hc _
    · split
      · next hac => subst hac; rw [hc, Memory.read_cell, if_neg h]
      · rw [Memory.read_cell, Memory.read_cell, ih]

/-- A read gives the byte last written to that cell. -/
theorem Memory.read_write_self {m : Memory} (a : Nat) (v : Byte) (hm : m.wf) : (m.write a v).read a = v := by
  induction m with
  | nil => rw [Memory.write, Memory.read_cons _ _ _ _ (by simp), if_pos rfl]
  | cons p m ih =>
    obtain ⟨b, w⟩ := p
    obtain ⟨ht, hlt⟩ := Memory.wf_tail hm
    unfold Memory.write
    split
    · next hab =>
      rw [Memory.read_cons, if_pos rfl]
      intro q hq
      rcases List.mem_cons.1 hq with rfl | hq
      · exact hab
      · exact lt_trans hab (hlt q hq)
    · split
      · next hab => subst hab; rw [Memory.read_cons _ _ _ _ hlt, if_pos rfl]
      · next h1 h2 => rw [Memory.read_cell, if_neg h2, ih ht]

theorem Memory.read_write {m : Memory} (a b : Nat) (v : Byte) (hm : m.wf) :
    (m.write a v).read b = if b = a then v else m.read b := by
  split
  · next h => rw [h, Memory.read_write_self a v hm]
  · next h => exact Memory.read_write_ne m v h

/-- What a cell holds after bytes have been stored upwards from an address. -/
theorem Memory.read_writeFrom (vs : List Byte) (m : Memory) (a b : Nat) (hm : m.wf) :
    (m.writeFrom a vs).read b = if h : a ≤ b ∧ b - a < vs.length ∧ b ≤ 255 then vs[b - a] else m.read b := by
  induction vs generalizing m a with
  | nil => simp [Memory.writeFrom]
  | cons v vs ih =>
    unfold Memory.writeFrom
    by_cases ha : a ≤ 255
    · rw [if_pos ha, ih _ _ (Memory.write_wf v hm (by omega)), Memory.read_write _ _ _ hm]
      by_cases hba : b = a
      · subst hba
        simp [ha]
      · by_cases hlt : a + 1 ≤ b ∧ b - (a + 1) < vs.length ∧ b ≤ 255
        · have h' : a ≤ b ∧ b - a < (v :: vs).length ∧ b ≤ 255 := by simp; omega
          rw [dif_pos hlt, dif_pos h']
          have : b - a = (b - (a + 1)) + 1 := by omega
          simp [this]
        · have h' : ¬(a ≤ b ∧ b - a < (v :: vs).length ∧ b ≤ 255) := by simp; omega
          rw [dif_neg hlt, dif_neg h', if_neg hba]
    · rw [if_neg ha, ih _ _ hm, dif_neg (by omega), dif_neg (by omega)]

end Sys2Proof.Machine
end

