-- ==== Sys2Proof/Laws/State.lean ====
section
/-! SUPPORT. The updates of the state, field by field, so that no proof unfolds a record update. -/

namespace Sys2Proof.Machine

/-! ## One lemma for each field and each update -/

@[simp] theorem State.setReg_pc (s : State) (i : Fin 8) (v : Byte) : (s.setReg i v).pc = s.pc := rfl
@[simp] theorem State.setReg_fl (s : State) (i : Fin 8) (v : Byte) : (s.setReg i v).fl = s.fl := rfl
@[simp] theorem State.setReg_run (s : State) (i : Fin 8) (v : Byte) : (s.setReg i v).run = s.run := rfl
@[simp] theorem State.setReg_mem (s : State) (i : Fin 8) (v : Byte) : (s.setReg i v).mem = s.mem := rfl
@[simp] theorem State.setReg_out (s : State) (i : Fin 8) (v : Byte) : (s.setReg i v).out = s.out := rfl

@[simp] theorem State.setPc_pc (s : State) (t : Byte) : (s.setPc t).pc = t := rfl
@[simp] theorem State.setPc_fl (s : State) (t : Byte) : (s.setPc t).fl = s.fl := rfl
@[simp] theorem State.setPc_run (s : State) (t : Byte) : (s.setPc t).run = s.run := rfl
@[simp] theorem State.setPc_mem (s : State) (t : Byte) : (s.setPc t).mem = s.mem := rfl
@[simp] theorem State.setPc_out (s : State) (t : Byte) : (s.setPc t).out = s.out := rfl
@[simp] theorem State.setPc_x (s : State) (t : Byte) : (s.setPc t).x = s.x := rfl
@[simp] theorem State.setPc_reg (s : State) (t : Byte) (j : Fin 8) : (s.setPc t).reg j = s.reg j := rfl

@[simp] theorem State.setFl_pc (s : State) (f : Byte) : (s.setFl f).pc = s.pc := rfl
@[simp] theorem State.setFl_fl (s : State) (f : Byte) : (s.setFl f).fl = f := rfl
@[simp] theorem State.setFl_run (s : State) (f : Byte) : (s.setFl f).run = s.run := rfl
@[simp] theorem State.setFl_mem (s : State) (f : Byte) : (s.setFl f).mem = s.mem := rfl
@[simp] theorem State.setFl_out (s : State) (f : Byte) : (s.setFl f).out = s.out := rfl
@[simp] theorem State.setFl_x (s : State) (f : Byte) : (s.setFl f).x = s.x := rfl
@[simp] theorem State.setFl_reg (s : State) (f : Byte) (j : Fin 8) : (s.setFl f).reg j = s.reg j := rfl

@[simp] theorem State.setRun_pc (s : State) (r : EngineState) : (s.setRun r).pc = s.pc := rfl
@[simp] theorem State.setRun_fl (s : State) (r : EngineState) : (s.setRun r).fl = s.fl := rfl
@[simp] theorem State.setRun_run (s : State) (r : EngineState) : (s.setRun r).run = r := rfl
@[simp] theorem State.setRun_mem (s : State) (r : EngineState) : (s.setRun r).mem = s.mem := rfl
@[simp] theorem State.setRun_out (s : State) (r : EngineState) : (s.setRun r).out = s.out := rfl
@[simp] theorem State.setRun_x (s : State) (r : EngineState) : (s.setRun r).x = s.x := rfl
@[simp] theorem State.setRun_reg (s : State) (r : EngineState) (j : Fin 8) : (s.setRun r).reg j = s.reg j := rfl

@[simp] theorem State.setMem_pc (s : State) (m : Memory) : (s.setMem m).pc = s.pc := rfl
@[simp] theorem State.setMem_fl (s : State) (m : Memory) : (s.setMem m).fl = s.fl := rfl
@[simp] theorem State.setMem_run (s : State) (m : Memory) : (s.setMem m).run = s.run := rfl
@[simp] theorem State.setMem_mem (s : State) (m : Memory) : (s.setMem m).mem = m := rfl
@[simp] theorem State.setMem_out (s : State) (m : Memory) : (s.setMem m).out = s.out := rfl
@[simp] theorem State.setMem_x (s : State) (m : Memory) : (s.setMem m).x = s.x := rfl
@[simp] theorem State.setMem_reg (s : State) (m : Memory) (j : Fin 8) : (s.setMem m).reg j = s.reg j := rfl

@[simp] theorem State.emit_pc (s : State) (v : Byte) : (s.emit v).pc = s.pc := rfl
@[simp] theorem State.emit_fl (s : State) (v : Byte) : (s.emit v).fl = s.fl := rfl
@[simp] theorem State.emit_run (s : State) (v : Byte) : (s.emit v).run = s.run := rfl
@[simp] theorem State.emit_mem (s : State) (v : Byte) : (s.emit v).mem = s.mem := rfl
@[simp] theorem State.emit_out (s : State) (v : Byte) : (s.emit v).out = s.out ++ [v] := rfl
@[simp] theorem State.emit_x (s : State) (v : Byte) : (s.emit v).x = s.x := rfl
@[simp] theorem State.emit_reg (s : State) (v : Byte) (j : Fin 8) : (s.emit v).reg j = s.reg j := rfl

/-! ## The Register File -/

theorem State.setReg_reg (s : State) (i j : Fin 8) (v : Byte) :
    (s.setReg i v).reg j = if i = j then v else s.reg j := by
  simp [State.reg, State.setReg, Vector.getElem_set, Fin.ext_iff]

@[simp] theorem State.setReg_reg_self (s : State) (i : Fin 8) (v : Byte) : (s.setReg i v).reg i = v := by
  simp [State.setReg_reg]

theorem State.setReg_reg_ne (s : State) {i j : Fin 8} (v : Byte) (h : i ≠ j) : (s.setReg i v).reg j = s.reg j := by
  simp [State.setReg_reg, h]

/-- Two states are one when every part of them agrees, the registers read one by one. -/
theorem State.ext_reg {s t : State} (hx : ∀ i, s.reg i = t.reg i) (hpc : s.pc = t.pc) (hfl : s.fl = t.fl)
    (hrun : s.run = t.run) (hmem : s.mem = t.mem) (hout : s.out = t.out) : s = t := by
  have hv : s.x = t.x := Vector.ext fun i hi => hx ⟨i, hi⟩
  cases s; cases t; simp_all

/-- Writing back the value a register holds changes nothing. -/
theorem State.setReg_self (s : State) (i : Fin 8) : s.setReg i (s.reg i) = s := by
  refine State.ext_reg (fun j => ?_) rfl rfl rfl rfl rfl
  rw [State.setReg_reg]; split
  · next h => rw [h]
  · rfl

/-! ## Reset -/

theorem State.resetWith_reg (gpr : Byte) (i : Fin 8) :
    (State.resetWith gpr).reg i = if i = spIndex then 0xF4 else gpr := by
  fin_cases i <;> rfl

end Sys2Proof.Machine
end

