-- ==== Sys2Proof/Laws/Ops.lean ====
section
/-! SUPPORT. For each shared operation, one lemma that says everything it can do. -/

namespace Sys2Proof.Machine

/-! ## Raising a fatal condition -/

theorem raise_eq (f : FatalCondition) (s : State) : raise f s = .next (s.setRun (.faulted f)) := rfl

theorem raise_next {f : FatalCondition} {s t : State} (h : raise f s = .next t) : t = s.setRun (.faulted f) := by
  simpa [raise_eq] using h.symm

/-! ## Memory access and the fetch -/

theorem withRead_inside {addr : Nat} (s : State) (k : Byte → Result) (h : addr ≤ 255) :
    withRead addr s k = k (s.mem.read addr) := by
  rw [withRead, if_neg (by omega)]

theorem withRead_outside {addr : Nat} (s : State) (k : Byte → Result) (h : 255 < addr) :
    withRead addr s k = .next (s.setRun (.faulted (.addressOutOfRange addr))) := by
  rw [withRead, if_pos h, raise_eq]

theorem withWrite_inside {addr : Nat} (v : Byte) (s : State) (k : State → Result) (h : addr ≤ 255) :
    withWrite addr v s k = k (s.setMem (s.mem.write addr v)) := by
  rw [withWrite, if_neg (by omega)]

theorem withWrite_outside {addr : Nat} (v : Byte) (s : State) (k : State → Result) (h : 255 < addr) :
    withWrite addr v s k = .next (s.setRun (.faulted (.addressOutOfRange addr))) := by
  rw [withWrite, if_pos h, raise_eq]

/-- The fetch hands on three bytes, or raises AddressOutOfRange(256), and nothing else. -/
theorem fetch_eq (s : State) (k : Byte → Byte → Byte → Result) :
    fetch s k = if s.pc.toNat ≤ 253 then
        k (s.mem.read s.pc.toNat) (s.mem.read (s.pc.toNat + 1)) (s.mem.read (s.pc.toNat + 2))
      else .next (s.setRun (.faulted (.addressOutOfRange 256))) := by
  have := s.pc.isLt
  rw [fetch, withRead_inside _ _ (by omega)]
  split
  · rw [withRead_inside _ _ (by omega), withRead_inside _ _ (by omega)]
  · by_cases h : s.pc.toNat = 255
    · rw [withRead_outside _ _ (by omega), h]
    · rw [withRead_inside _ _ (by omega), withRead_outside _ _ (by omega)]
      have : s.pc.toNat + 2 = 256 := by omega
      rw [this]

/-! ## Register operands -/

@[simp] theorem regIndex_regByte (a : Fin 8) : regIndex (regByte a) = some a := by
  fin_cases a <;> rfl

theorem regIndex_eq_some {v : Byte} {a : Fin 8} (h : regIndex v = some a) : v = regByte a := by
  unfold regIndex at h
  split at h
  · next hv =>
    obtain rfl := Option.some.inj h
    simp [regByte]
  · cases h

theorem regIndex_eq_none {v : Byte} : regIndex v = none ↔ 7 < v.toNat := by
  unfold regIndex; split <;> simp <;> omega

/-- A byte either is the operand of a register or is above 7. -/
theorem regByte_or (v : Byte) : (∃ a, v = regByte a) ∨ 7 < v.toNat := by
  cases h : regIndex v with
  | some a => exact .inl ⟨a, regIndex_eq_some h⟩
  | none => exact .inr (regIndex_eq_none.1 h)

@[simp] theorem withReg_regByte (a : Fin 8) (s : State) (k : Fin 8 → Result) : withReg (regByte a) s k = k a := by
  simp [withReg]

theorem withReg_illegal {v : Byte} (s : State) (k : Fin 8 → Result) (h : 7 < v.toNat) :
    withReg v s k = .next (s.setRun (.faulted (.invalidRegisterIndex v))) := by
  rw [withReg, regIndex_eq_none.2 h]; rfl

@[simp] theorem withRegs_regByte (a b : Fin 8) (s : State) (k : Fin 8 → Fin 8 → Result) :
    withRegs (regByte a) (regByte b) s k = k a b := by
  simp [withRegs]

theorem withRegs_illegal_left {va : Byte} (vb : Byte) (s : State) (k : Fin 8 → Fin 8 → Result) (h : 7 < va.toNat) :
    withRegs va vb s k = .next (s.setRun (.faulted (.invalidRegisterIndex va))) := by
  rw [withRegs, withReg_illegal _ _ h]

theorem withRegs_illegal_right (a : Fin 8) {vb : Byte} (s : State) (k : Fin 8 → Fin 8 → Result) (h : 7 < vb.toNat) :
    withRegs (regByte a) vb s k = .next (s.setRun (.faulted (.invalidRegisterIndex vb))) := by
  rw [withRegs, withReg_regByte, withReg_illegal _ _ h]

/-! ## The program counter -/

theorem movePc_inside {n : Nat} (s : State) (k : State → Result) (h : n ≤ 255) :
    movePc n s k = k (s.setPc (BitVec.ofNat 8 n)) := by
  rw [movePc, if_neg (by omega)]

theorem movePc_outside {n : Nat} (s : State) (k : State → Result) (h : 255 < n) :
    movePc n s k = .next (s.setRun (.faulted (.addressOutOfRange n))) := by
  rw [movePc, if_pos h, raise_eq]

theorem movePc_cases {n : Nat} {s t : State} (h : movePc n s .next = .next t) :
    (n ≤ 255 ∧ t = s.setPc (BitVec.ofNat 8 n)) ∨ (255 < n ∧ t = s.setRun (.faulted (.addressOutOfRange n))) := by
  by_cases hn : n ≤ 255
  · rw [movePc_inside _ _ hn] at h; cases h; exact .inl ⟨hn, rfl⟩
  · rw [movePc_outside _ _ (by omega)] at h; cases h; exact .inr ⟨by omega, rfl⟩

/-- What moving `pc` leaves alone: everything but `pc` itself, or but `run` where the value does not fit. -/
theorem movePc_rest {n : Nat} {s t : State} (h : movePc n s .next = .next t) :
    (∀ j, t.reg j = s.reg j) ∧ t.fl = s.fl ∧ t.out = s.out ∧ t.mem = s.mem ∧
      (t.run = s.run ∨ (255 < n ∧ t.run = .faulted (.addressOutOfRange n) ∧ t.pc = s.pc)) := by
  obtain ⟨-, rfl⟩ | ⟨hn, rfl⟩ := movePc_cases h
  · exact ⟨fun _ => rfl, rfl, rfl, rfl, .inl rfl⟩
  · exact ⟨fun _ => rfl, rfl, rfl, rfl, .inr ⟨hn, rfl, rfl⟩⟩

/-! ## Completing a step -/

theorem advancePc_setsPC {ir : Byte} (s : State) (h : setsPC ir = true) : advancePc ir s = .next s := by
  rw [advancePc, if_pos h]

theorem advancePc_adds {ir : Byte} (s : State) (h : setsPC ir = false) :
    advancePc ir s = movePc (s.pc.toNat + advance ir) s .next := by
  rw [advancePc, h, if_neg Bool.false_ne_true]

/-- A raise has ended the step. -/
theorem completeStep_raised (ir : Byte) {u : State} {f : FatalCondition} (h : u.run = .faulted f) :
    completeStep ir (.next u) = .next u := by
  simp only [completeStep, h]

/-- A handler that returned is followed by the advance. -/
theorem completeStep_returned (ir : Byte) {u : State} (h : ∀ f, u.run ≠ .faulted f) :
    completeStep ir (.next u) = advancePc ir u := by
  simp only [completeStep]
  split
  · next f hf => exact absurd hf (h f)
  · rfl
  · rfl

/-- Everything the engine can do with what a handler answers. -/
theorem completeStep_cases {ir : Byte} {r : Result} {t : State} (h : completeStep ir r = .next t) :
    ∃ u, r = .next u ∧
      ((∃ f, u.run = .faulted f ∧ t = u) ∨
        ((∀ f, u.run ≠ .faulted f) ∧
          ((setsPC ir = true ∧ t = u) ∨
            (setsPC ir = false ∧ u.pc.toNat + advance ir ≤ 255 ∧
              t = u.setPc (BitVec.ofNat 8 (u.pc.toNat + advance ir))) ∨
            (setsPC ir = false ∧ 255 < u.pc.toNat + advance ir ∧
              t = u.setRun (.faulted (.addressOutOfRange (u.pc.toNat + advance ir))))))) := by
  cases r with
  | fault f => cases h
  | refused r => cases h
  | next u =>
    refine ⟨u, rfl, ?_⟩
    by_cases hf : ∃ f, u.run = .faulted f
    · obtain ⟨f, hf⟩ := hf
      rw [completeStep_raised ir hf] at h
      cases h
      exact .inl ⟨f, hf, rfl⟩
    · have hf := not_exists.1 hf
      rw [completeStep_returned ir hf] at h
      refine .inr ⟨hf, ?_⟩
      cases hs : setsPC ir with
      | true => rw [advancePc_setsPC u hs] at h; cases h; exact .inl ⟨rfl, rfl⟩
      | false =>
        rw [advancePc_adds u hs] at h
        exact .inr ((movePc_cases h).imp (fun h => ⟨rfl, h⟩) fun h => ⟨rfl, h⟩)

/-- What item 6 leaves alone: everything but `pc` and, where the advance does not fit, `run`. -/
theorem completeStep_rest {ir : Byte} {u t : State} (h : completeStep ir (.next u) = .next t) :
    (∀ j, t.reg j = u.reg j) ∧ t.fl = u.fl ∧ t.mem = u.mem ∧ t.out = u.out ∧
      (t.run = u.run ∨ (t.run = .faulted (.addressOutOfRange (u.pc.toNat + advance ir)) ∧ t.pc = u.pc)) := by
  obtain ⟨_, hu, h⟩ := completeStep_cases h
  cases hu
  obtain ⟨-, -, rfl⟩ | ⟨-, ⟨-, rfl⟩ | ⟨-, -, rfl⟩ | ⟨-, -, rfl⟩⟩ := h
  · exact ⟨fun _ => rfl, rfl, rfl, rfl, .inl rfl⟩
  · exact ⟨fun _ => rfl, rfl, rfl, rfl, .inl rfl⟩
  · exact ⟨fun _ => rfl, rfl, rfl, rfl, .inl rfl⟩
  · exact ⟨fun _ => rfl, rfl, rfl, rfl, .inr ⟨rfl, rfl⟩⟩

/-! ## The flags -/

@[simp] theorem equalFlag_setEqualFlag (fl : Byte) (b : Bool) : equalFlag (setEqualFlag fl b) = b := by
  revert fl b; decide

@[simp] theorem reservedFlags_setEqualFlag (fl : Byte) (b : Bool) :
    reservedFlags (setEqualFlag fl b) = reservedFlags fl := by
  revert fl b; decide

end Sys2Proof.Machine
end

