-- ==== Sys2Proof/Laws/Exec.lean ====
section
/-! SUPPORT. What each meaning comes to once its register operands name registers, and once they do not: the lemmas later
proofs cite instead of unfolding a meaning. -/

namespace Sys2Proof.Machine

variable (a b : Fin 8) (s : State)

/-! ## Legal operands -/

theorem exec_ldi (imm : Byte) : exec (.ldi (regByte a) imm) s = .next (s.setReg a imm) := by
  simp [exec, execLdi]

theorem exec_prn : exec (.prn (regByte a)) s = .next (s.emit (s.reg a)) := by
  simp [exec, execPrn]

theorem exec_hlt : exec .hlt s = .next (s.setRun .halted) := rfl

theorem exec_mul :
    exec (.mul (regByte a) (regByte b)) s = .next (s.setReg a (multiplyBytes (s.reg a) (s.reg b))) := by
  simp [exec, execMul, alu]

theorem exec_add :
    exec (.add (regByte a) (regByte b)) s = .next (s.setReg a (addBytes (s.reg a) (s.reg b))) := by
  simp [exec, execAdd, alu]

theorem exec_cmp :
    exec (.cmp (regByte a) (regByte b)) s = .next (s.setFl (setEqualFlag s.fl (s.reg a == s.reg b))) := by
  simp [exec, execCmp, alu]

theorem exec_jmp : exec (.jmp (regByte a)) s = .next (s.setPc (s.reg a)) := by
  simp [exec, execJmp]

theorem exec_jeq :
    exec (.jeq (regByte a)) s =
      if equalFlag s.fl then .next (s.setPc (s.reg a)) else movePc (s.pc.toNat + 2) s .next := by
  simp [exec, execJeq, notTaken]

theorem exec_jne :
    exec (.jne (regByte a)) s =
      if equalFlag s.fl then movePc (s.pc.toNat + 2) s .next else .next (s.setPc (s.reg a)) := by
  simp [exec, execJne, notTaken]

/-! ## The stack -/

/-- The integer test of PUSH is the comparison of the two registers (43_stack.md R86). -/
theorem pushFits_iff : pushFits s = true ↔ (s.reg boundIndex).toNat < (s.reg spIndex).toNat := by
  simp only [pushFits, decide_eq_true_eq]; omega

theorem pushAddress_eq (h : (s.reg boundIndex).toNat < (s.reg spIndex).toNat) :
    pushAddress s = (s.reg spIndex).toNat - 1 := by
  have := (s.reg spIndex).isLt
  simp only [pushAddress, decrementSp, State.setReg_reg_self, BitVec.toNat_sub, BitVec.reduceToNat]
  omega

theorem exec_push_fits (h : pushFits s = true) :
    exec (.push (regByte a)) s =
      .next ((decrementSp s).setMem (s.mem.write (pushAddress s) ((decrementSp s).reg a))) := by
  have ha : pushAddress s ≤ 255 := by
    have := ((decrementSp s).reg spIndex).isLt
    unfold pushAddress; omega
  simp [exec, execPush, h, withWrite_inside _ _ _ ha, decrementSp]

theorem exec_push_overflow (h : pushFits s = false) :
    exec (.push (regByte a)) s = .next (s.setRun (.faulted (.stackOverflow (s.reg spIndex) (s.reg boundIndex)))) := by
  simp [exec, execPush, h, raise_eq]

theorem incrementSp_pc : (incrementSp s).pc = s.pc := by unfold incrementSp; split <;> rfl
theorem incrementSp_fl : (incrementSp s).fl = s.fl := by unfold incrementSp; split <;> rfl
theorem incrementSp_run : (incrementSp s).run = s.run := by unfold incrementSp; split <;> rfl
theorem incrementSp_mem : (incrementSp s).mem = s.mem := by unfold incrementSp; split <;> rfl
theorem incrementSp_out : (incrementSp s).out = s.out := by unfold incrementSp; split <;> rfl

theorem incrementSp_reg_ne {j : Fin 8} (h : j ≠ spIndex) : (incrementSp s).reg j = s.reg j := by
  unfold incrementSp; split
  · exact State.setReg_reg_ne s _ (Ne.symm h)
  · rfl

/-- POP's increment: below the stack head by one, at it or above it not at all. -/
theorem incrementSp_sp :
    ((incrementSp s).reg spIndex).toNat =
      if (s.reg spIndex).toNat < 0xF4 then (s.reg spIndex).toNat + 1 else (s.reg spIndex).toNat := by
  have hlt : s.reg spIndex < stackHead ↔ (s.reg spIndex).toNat < 0xF4 := by
    simp [BitVec.lt_def, stackHead]
  unfold incrementSp
  by_cases h : s.reg spIndex < stackHead
  · rw [if_pos h, if_pos (hlt.1 h), State.setReg_reg_self, BitVec.toNat_add]
    have := hlt.1 h
    simp only [BitVec.reduceToNat]; omega
  · rw [if_neg h, if_neg fun h' => h (hlt.2 h')]

theorem exec_pop :
    exec (.pop (regByte a)) s =
      .next (incrementSp (s.setReg a (s.mem.read (s.reg spIndex).toNat))) := by
  have := (s.reg spIndex).isLt
  have h : (s.reg spIndex).toNat ≤ 255 := by omega
  simp [exec, execPop, withRead_inside _ _ h]

/-! ## Illegal operands -/

/-- The state a handler leaves that finds an operand byte above 7. -/
theorem exec_illegal_one {v : Byte} (h : 7 < v.toNat) (imm : Byte) :
    let t : Result := .next (s.setRun (.faulted (.invalidRegisterIndex v)))
    exec (.ldi v imm) s = t ∧ exec (.prn v) s = t ∧ exec (.push v) s = t ∧ exec (.pop v) s = t ∧
      exec (.jmp v) s = t ∧ exec (.jeq v) s = t ∧ exec (.jne v) s = t := by
  simp [exec, execLdi, execPrn, execPush, execPop, execJmp, execJeq, execJne, withReg_illegal _ _ h]

theorem exec_illegal_left {v : Byte} (h : 7 < v.toNat) (vb : Byte) :
    let t : Result := .next (s.setRun (.faulted (.invalidRegisterIndex v)))
    exec (.mul v vb) s = t ∧ exec (.cmp v vb) s = t ∧ exec (.add v vb) s = t := by
  simp [exec, execMul, execCmp, execAdd, withRegs_illegal_left _ _ _ h]

theorem exec_illegal_right {v : Byte} (h : 7 < v.toNat) :
    let t : Result := .next (s.setRun (.faulted (.invalidRegisterIndex v)))
    exec (.mul (regByte a) v) s = t ∧ exec (.cmp (regByte a) v) s = t ∧ exec (.add (regByte a) v) s = t := by
  simp [exec, execMul, execCmp, execAdd, withRegs_illegal_right a _ _ h]

/-! ## Everything an instruction can do -/

theorem regByte_legal : ¬7 < (regByte a).toNat := by
  revert a; decide

/-- The ways an instruction comes to a next state: a register operand above 7, or its handler's effect or its fault. -/
inductive ExecCase : Instr → State → State → Prop where
  | illegal {i : Instr} {s : State} {v : Byte} (h : (registerOperands i).find? (fun w => decide (7 < w.toNat)) = some v) :
      ExecCase i s (s.setRun (.faulted (.invalidRegisterIndex v)))
  | ldi {a : Fin 8} {imm : Byte} {s : State} : ExecCase (.ldi (regByte a) imm) s (s.setReg a imm)
  | prn {a : Fin 8} {s : State} : ExecCase (.prn (regByte a)) s (s.emit (s.reg a))
  | hlt {s : State} : ExecCase .hlt s (s.setRun .halted)
  | mul {a b : Fin 8} {s : State} :
      ExecCase (.mul (regByte a) (regByte b)) s (s.setReg a (multiplyBytes (s.reg a) (s.reg b)))
  | add {a b : Fin 8} {s : State} :
      ExecCase (.add (regByte a) (regByte b)) s (s.setReg a (addBytes (s.reg a) (s.reg b)))
  | cmp {a b : Fin 8} {s : State} :
      ExecCase (.cmp (regByte a) (regByte b)) s (s.setFl (setEqualFlag s.fl (s.reg a == s.reg b)))
  | overflow {a : Fin 8} {s : State} (hf : pushFits s = false) :
      ExecCase (.push (regByte a)) s (s.setRun (.faulted (.stackOverflow (s.reg spIndex) (s.reg boundIndex))))
  | push {a : Fin 8} {s : State} (hf : pushFits s = true) :
      ExecCase (.push (regByte a)) s
        ((decrementSp s).setMem (s.mem.write (pushAddress s) ((decrementSp s).reg a)))
  | pop {a : Fin 8} {s : State} :
      ExecCase (.pop (regByte a)) s (incrementSp (s.setReg a (s.mem.read (s.reg spIndex).toNat)))
  | jmp {a : Fin 8} {s : State} : ExecCase (.jmp (regByte a)) s (s.setPc (s.reg a))
  | jeqTaken {a : Fin 8} {s : State} (he : equalFlag s.fl = true) :
      ExecCase (.jeq (regByte a)) s (s.setPc (s.reg a))
  | jeqNotTaken {a : Fin 8} {s t : State} (he : equalFlag s.fl = false)
      (h : movePc (s.pc.toNat + 2) s .next = .next t) : ExecCase (.jeq (regByte a)) s t
  | jneTaken {a : Fin 8} {s : State} (he : equalFlag s.fl = false) :
      ExecCase (.jne (regByte a)) s (s.setPc (s.reg a))
  | jneNotTaken {a : Fin 8} {s t : State} (he : equalFlag s.fl = true)
      (h : movePc (s.pc.toNat + 2) s .next = .next t) : ExecCase (.jne (regByte a)) s t

/-- The inversion lemma of `exec`: an instruction that answers a next state has done one of these. -/
theorem exec_cases {i : Instr} {s t : State} (h : exec i s = .next t) : ExecCase i s t := by
  have one : ∀ {v : Byte} {i : Instr}, 7 < v.toNat → (registerOperands i).head? = some v → exec i s = .next t →
      exec i s = .next (s.setRun (.faulted (.invalidRegisterIndex v))) → ExecCase i s t := fun hv hi h hx => by
    rw [hx] at h; cases h
    obtain ⟨l, hl⟩ := List.head?_eq_some_iff.1 hi
    exact .illegal (by simp [hl, hv])
  cases i with
  | ldi ra imm =>
    obtain ⟨a, rfl⟩ | hv := regByte_or ra
    · rw [exec_ldi] at h; cases h; exact .ldi
    · exact one hv rfl h (exec_illegal_one s hv imm).1
  | prn ra =>
    obtain ⟨a, rfl⟩ | hv := regByte_or ra
    · rw [exec_prn] at h; cases h; exact .prn
    · exact one hv rfl h (exec_illegal_one s hv 0).2.1
  | hlt => rw [exec_hlt] at h; cases h; exact .hlt
  | mul ra rb =>
    obtain ⟨a, rfl⟩ | hv := regByte_or ra
    · obtain ⟨b, rfl⟩ | hv := regByte_or rb
      · rw [exec_mul] at h; cases h; exact .mul
      · rw [(exec_illegal_right a s hv).1] at h; cases h
        exact .illegal (by simp [registerOperands, hv, regByte_legal])
    · exact one hv rfl h (exec_illegal_left s hv rb).1
  | add ra rb =>
    obtain ⟨a, rfl⟩ | hv := regByte_or ra
    · obtain ⟨b, rfl⟩ | hv := regByte_or rb
      · rw [exec_add] at h; cases h; exact .add
      · rw [(exec_illegal_right a s hv).2.2] at h; cases h
        exact .illegal (by simp [registerOperands, hv, regByte_legal])
    · exact one hv rfl h (exec_illegal_left s hv rb).2.2
  | cmp ra rb =>
    obtain ⟨a, rfl⟩ | hv := regByte_or ra
    · obtain ⟨b, rfl⟩ | hv := regByte_or rb
      · rw [exec_cmp] at h; cases h; exact .cmp
      · rw [(exec_illegal_right a s hv).2.1] at h; cases h
        exact .illegal (by simp [registerOperands, hv, regByte_legal])
    · exact one hv rfl h (exec_illegal_left s hv rb).2.1
  | push ra =>
    obtain ⟨a, rfl⟩ | hv := regByte_or ra
    · cases hf : pushFits s with
      | false => rw [exec_push_overflow a s hf] at h; cases h; exact .overflow hf
      | true => rw [exec_push_fits a s hf] at h; cases h; exact .push hf
    · exact one hv rfl h (exec_illegal_one s hv 0).2.2.1
  | pop ra =>
    obtain ⟨a, rfl⟩ | hv := regByte_or ra
    · rw [exec_pop] at h; cases h; exact .pop
    · exact one hv rfl h (exec_illegal_one s hv 0).2.2.2.1
  | jmp ra =>
    obtain ⟨a, rfl⟩ | hv := regByte_or ra
    · rw [exec_jmp] at h; cases h; exact .jmp
    · exact one hv rfl h (exec_illegal_one s hv 0).2.2.2.2.1
  | jeq ra =>
    obtain ⟨a, rfl⟩ | hv := regByte_or ra
    · rw [exec_jeq] at h
      cases he : equalFlag s.fl with
      | false => exact .jeqNotTaken he (by simpa [he] using h)
      | true => rw [he] at h; cases h; exact .jeqTaken he
    · exact one hv rfl h (exec_illegal_one s hv 0).2.2.2.2.2.1
  | jne ra =>
    obtain ⟨a, rfl⟩ | hv := regByte_or ra
    · rw [exec_jne] at h
      cases he : equalFlag s.fl with
      | false => rw [he] at h; cases h; exact .jneTaken he
      | true => exact .jneNotTaken he (by simpa [he] using h)
    · exact one hv rfl h (exec_illegal_one s hv 0).2.2.2.2.2.2

/-- A handler that does not write `pc` leaves it where the step started (40_engine_cycle.md R65, R66). -/
theorem exec_pc {i : Instr} {s t : State} (h : exec i s = .next t) (hw : writesPc i.mnemonic = false) : t.pc = s.pc := by
  cases exec_cases h with
  | pop => exact incrementSp_pc _
  | jmp | jeqTaken | jeqNotTaken | jneTaken | jneNotTaken => cases hw
  | _ => rfl

end Sys2Proof.Machine
end

