-- ==== Sys2Proof/Laws/PerInstr.lean ====
section
/-! SUPPORT. Statements made of every instruction, one lemma a constructor: an instruction's bytes are its opcode byte and
as many operand bytes as its format has, at every assignment of opcode bytes (30_encoding.md R43). -/

namespace Sys2Proof.Laws.EncodeShape

/-- The encoded instruction begins with its opcode byte and has the length of its format. -/
def Statement (i : Instr) : Prop :=
  ∀ c : Config, (encode c i).head? = some (opcodeByte c i.mnemonic) ∧
    (encode c i).length = operandCount i.mnemonic + 1

theorem ldi (ra imm : Byte) : Statement (.ldi ra imm) := fun _ => ⟨rfl, rfl⟩
theorem prn (ra : Byte) : Statement (.prn ra) := fun _ => ⟨rfl, rfl⟩
theorem hlt : Statement .hlt := fun _ => ⟨rfl, rfl⟩
theorem mul (ra rb : Byte) : Statement (.mul ra rb) := fun _ => ⟨rfl, rfl⟩
theorem push (ra : Byte) : Statement (.push ra) := fun _ => ⟨rfl, rfl⟩
theorem pop (ra : Byte) : Statement (.pop ra) := fun _ => ⟨rfl, rfl⟩
theorem cmp (ra rb : Byte) : Statement (.cmp ra rb) := fun _ => ⟨rfl, rfl⟩
theorem jmp (ra : Byte) : Statement (.jmp ra) := fun _ => ⟨rfl, rfl⟩
theorem jeq (ra : Byte) : Statement (.jeq ra) := fun _ => ⟨rfl, rfl⟩
theorem jne (ra : Byte) : Statement (.jne ra) := fun _ => ⟨rfl, rfl⟩
theorem add (ra rb : Byte) : Statement (.add ra rb) := fun _ => ⟨rfl, rfl⟩

end Sys2Proof.Laws.EncodeShape
end

