-- ==== Sys2Proof/Laws/Step.lean ====
section
/-! SUPPORT. What a step can do: the one lemma about the step that later proofs start from. -/

namespace Sys2Proof.Machine

/-- A step while Running: the instruction the three bytes give, an unhandled opcode, or the pre-fetch's fault. -/
theorem stepWith_running (c : Config) {s : State} (h : s.run = .running) :
    stepWith c s =
      if s.pc.toNat ≤ 253 then
        match decodeFetched c (s.mem.read s.pc.toNat) (s.mem.read (s.pc.toNat + 1)) (s.mem.read (s.pc.toNat + 2)) with
        | some i => completeStep (s.mem.read s.pc.toNat) (exec i s)
        | none => .next (s.setRun (.faulted (.unhandledInstruction (s.mem.read s.pc.toNat))))
      else .next (s.setRun (.faulted (.addressOutOfRange 256))) := by
  rw [stepWith, h]
  exact fetch_eq s _

/-- No step elsewhere. -/
theorem stepWith_not_running (c : Config) {s : State} (h : s.run ≠ .running) :
    stepWith c s = .fault (.notRunning s.run) := by
  unfold stepWith
  cases hr : s.run with
  | running => exact absurd hr h
  | halted => rfl
  | faulted f => rfl

/-- Everything a step that answers a next state has done: its instruction's handler ran and the step was completed by the
fetched byte, or no handler ran and a fault was raised. -/
theorem stepWith_cases {c : Config} {s t : State} (h : stepWith c s = .next t) :
    s.run = .running ∧
    ((∃ i u, nextInstr c s = some i ∧ s.pc.toNat ≤ 253 ∧ exec i s = .next u ∧
        completeStep (s.mem.read s.pc.toNat) (.next u) = .next t) ∨
      (nextInstr c s = none ∧ ∃ f, faultOf t = some f ∧ t = s.setRun (.faulted f))) := by
  by_cases hr : s.run = .running
  · refine ⟨hr, ?_⟩
    rw [stepWith_running c hr] at h
    unfold nextInstr
    split at h
    · next hp =>
      rw [if_pos hp]
      split at h
      · next i hi =>
        obtain ⟨u, hu, -⟩ := completeStep_cases h
        exact .inl ⟨i, u, hi, hp, hu, hu ▸ h⟩
      · next hi =>
        cases h
        exact .inr ⟨hi, _, rfl, rfl⟩
    · next hp =>
      cases h
      rw [if_neg hp]
      exact .inr ⟨rfl, _, rfl, rfl⟩
  · rw [stepWith_not_running c hr] at h; cases h

/-- A step while Running whose bytes give an instruction. -/
theorem stepWith_nextInstr {c : Config} {s : State} {i : Instr} (hr : s.run = .running)
    (hi : nextInstr c s = some i) : stepWith c s = completeStep (s.mem.read s.pc.toNat) (exec i s) := by
  unfold nextInstr at hi
  split at hi
  · next hp => rw [stepWith_running c hr, if_pos hp, hi]
  · cases hi

/-- The byte at `pc` is the opcode byte of the instruction the next step runs. -/
theorem nextInstr_opcode {c : Config} {s : State} {i : Instr} (hi : nextInstr c s = some i) :
    s.pc.toNat ≤ 253 ∧ s.mem.read s.pc.toNat = opcodeByte c i.mnemonic ∧ i.mnemonic ∈ mappedMnemonics c := by
  unfold nextInstr at hi
  split at hi
  · next hp =>
    rw [decodeFetched_eq, Option.map_eq_some_iff] at hi
    obtain ⟨m, hm, rfl⟩ := hi
    rw [buildInstr_mnemonic]
    exact ⟨hp, lookupOpcode_some hm⟩
  · cases hi

theorem operands_length (i : Instr) : i.operands.length = operandCount i.mnemonic := by
  cases i <;> rfl

/-- At a valid assignment the fetched byte's shape is that of the instruction it selects (30_encoding.md R51). -/
theorem nextInstr_shape {c : Config} {s : State} {i : Instr} (hv : ValidAssignment c) (hi : nextInstr c s = some i) :
    setsPC (s.mem.read s.pc.toNat) = writesPc i.mnemonic ∧
      advance (s.mem.read s.pc.toNat) = i.operands.length + 1 := by
  obtain ⟨-, hop, hm⟩ := nextInstr_opcode hi
  rw [hop, operands_length]
  exact (hv.1 _ hm).symm

/-- Everything a step at a valid assignment does with an instruction: its handler's raise has ended it, or what the handler
left stands, with `pc` moved past the instruction where the handler does not write it, or with the advance's fault. -/
theorem stepWith_valid_cases {c : Config} {s t : State} {i : Instr} (hv : ValidAssignment c)
    (hi : nextInstr c s = some i) (h : stepWith c s = .next t) :
    s.run = .running ∧ s.pc.toNat ≤ 253 ∧ ∃ u, exec i s = .next u ∧
      ((∃ f, u.run = .faulted f ∧ t = u) ∨
        ((∀ f, u.run ≠ .faulted f) ∧
          ((writesPc i.mnemonic = true ∧ t = u) ∨
            (writesPc i.mnemonic = false ∧ u.pc = s.pc ∧ s.pc.toNat + (i.operands.length + 1) ≤ 255 ∧
              t = u.setPc (BitVec.ofNat 8 (s.pc.toNat + (i.operands.length + 1)))) ∨
            (writesPc i.mnemonic = false ∧ u.pc = s.pc ∧ 255 < s.pc.toNat + (i.operands.length + 1) ∧
              t = u.setRun (.faulted (.addressOutOfRange (s.pc.toNat + (i.operands.length + 1)))))))) := by
  obtain ⟨hr, ⟨k, u, hk, hp, hu, hc⟩ | ⟨hk, -⟩⟩ := stepWith_cases h
  · obtain rfl := Option.some.inj (hi.symm.trans hk)
    refine ⟨hr, hp, u, hu, ?_⟩
    obtain ⟨h1, h2⟩ := nextInstr_shape hv hi
    obtain ⟨_, he, hh⟩ := completeStep_cases hc
    cases he
    refine hh.imp_right fun ⟨hn, hh⟩ => ⟨hn, ?_⟩
    rw [h1, h2] at hh
    rcases hh with hh | ⟨hw, hh⟩ | ⟨hw, hh⟩
    · exact .inl hh
    · have hpc := exec_pc hu hw
      rw [hpc] at hh
      exact .inr (.inl ⟨hw, hpc, hh⟩)
    · have hpc := exec_pc hu hw
      rw [hpc] at hh
      exact .inr (.inr ⟨hw, hpc, hh⟩)
  · rw [hi] at hk; cases hk

end Sys2Proof.Machine
end

