-- ==== Sys2Proof/Tests/Slice0.lean ====
section
/-! SUPPORT. The model's own tests: ill-formed instructions, words decoded, single steps with the results of
spec/95_test_vectors.md, and for every statement with hypotheses a witness that meets them. -/

namespace Sys2Proof.Tests

open Machine

/-! ## Helpers -/

/-- The reset state with bytes at an address and `pc` there. -/
def at_ (pc : Byte) (bytes : List Byte) : State := placeBytes (State.reset.setPc pc) bytes

/-- A part of the next state. -/
def after {α : Type} (r : Result) (f : State → α) : Option α :=
  match r with
  | .next t => some (f t)
  | .fault _ => none
  | .refused _ => none

/-! ## Well-formedness: an ill-formed term for each check (30_encoding.md R48) -/

theorem test_wellFormed_refuses :
    [Instr.ldi 8 0, .prn 8, .mul 8 0, .mul 0 8, .push 8, .pop 0xFF, .cmp 8 0, .cmp 0 8, .jmp 8, .jeq 9, .jne 0x10,
      .add 8 0, .add 0 8].all (fun i => !i.wellFormed) = true := by decide

theorem test_wellFormed_accepts :
    [Instr.ldi 7 0xFF, .prn 7, .hlt, .mul 7 7, .push 7, .pop 7, .cmp 7 7, .jmp 7, .jeq 7, .jne 7, .add 7 7].all
      Instr.wellFormed = true := by decide

/-! ## Decoding: words written out bit by bit from 30_encoding.md R50 -/

theorem test_decode_ldi : decode defaultConfig [0b10000010, 0b00000111, 0b11111111] = .ok (.ldi 7 0xFF, []) := by rfl
theorem test_decode_prn : decode defaultConfig [0b01000111, 0b00000011, 0b00000001] = .ok (.prn 3, [1]) := by rfl
theorem test_decode_hlt : decode defaultConfig [0b00000001, 0b00000010] = .ok (.hlt, [2]) := by rfl
theorem test_decode_mul : decode defaultConfig [0b10100010, 0b00000001, 0b00000010] = .ok (.mul 1 2, []) := by rfl
theorem test_decode_cmp : decode defaultConfig [0b10100111, 0b00000001, 0b00000010] = .ok (.cmp 1 2, []) := by rfl
theorem test_decode_push : decode defaultConfig [0b01000101, 0b00000111] = .ok (.push 7, []) := by rfl
theorem test_decode_pop : decode defaultConfig [0b01000110, 0b00000100] = .ok (.pop 4, []) := by rfl
theorem test_decode_jmp : decode defaultConfig [0b01010100, 0b00000001] = .ok (.jmp 1, []) := by rfl
theorem test_decode_jeq : decode defaultConfig [0b01010101, 0b00000011] = .ok (.jeq 3, []) := by rfl
theorem test_decode_jne : decode defaultConfig [0b01010110, 0b00001001] = .ok (.jne 9, []) := by rfl
theorem test_decode_add : decode tableConfig [0b10100000, 0b00000001, 0b00000010] = .ok (.add 1 2, []) := by rfl

/-- Unmapped bytes are rejected by name, and a cut instruction too (R52). -/
theorem test_decode_rejects :
    [decode defaultConfig [0x50, 0], decode defaultConfig [0xA0, 0, 1], decode defaultConfig [0x82, 0]] =
      [.error (.unmappedOpcode 0x50), .error (.unmappedOpcode 0xA0), .error .truncated] := by rfl

/-- The table numbers the first byte's bits lowest: 0x080082 is LDI R0,8. -/
theorem test_decodeTableWord :
    [decodeTableWord 24 0x080082, decodeTableWord 8 0x47, decodeTableWord 24 0x0100A0, decodeTableWord 8 0xFF] =
      [some (.ldi 0 8), some (.prn 0), some (.add 0 1), none] := by decide

/-- Ten distinct keys without ADD and eleven with it, so 246 and 245 unmapped bytes (R52). -/
theorem test_unmapped_counts :
    (256 - (dispatchKeys defaultConfig).dedup.length, 256 - (dispatchKeys tableConfig).dedup.length) = (246, 245) := by
  decide

/-! ## Single steps, with the results of 95_test_vectors.md part 2 -/

theorem test_ldi_V1 : after (step (at_ 0 [0x82, 0, 8])) (fun t => (t.reg 0, t.pc)) = some (8, 3) := by decide
theorem test_ldi_V4 : after (step (at_ 0 [0x82, 8, 1])) (fun t => (t.run, t.pc, t.x)) =
    some (.faulted (.invalidRegisterIndex 8), 0, State.reset.x) := by decide
theorem test_prn_V5 : after (step ((at_ 3 [0x47, 0]).setReg 0 8)) (fun t => (t.out, t.pc)) = some ([8], 5) := by decide
theorem test_prn_V6 : after (step (at_ 3 [0x47, 7])) (fun t => (t.out, t.pc)) = some ([244], 5) := by decide
theorem test_hlt_V7b : after (step (at_ 253 [1, 0, 0])) (fun t => (t.run, t.pc)) = some (.halted, 0xFE) := by decide
theorem test_hlt_V7c : after (step (at_ 254 [1, 0])) (fun t => (t.run, t.pc)) =
    some (.faulted (.addressOutOfRange 256), 0xFE) := by decide
theorem test_mul_V10 : after (step (((at_ 0 [0xA2, 0, 1]).setReg 0 0xFF).setReg 1 0xFF)) (fun t => (t.reg 0, t.reg 1)) =
    some (1, 0xFF) := by decide
theorem test_mul_V12d : after (step (at_ 0 [0xA2, 9, 10])) (fun t => t.run) =
    some (.faulted (.invalidRegisterIndex 9)) := by decide
theorem test_cmp_V13 : after (step (((at_ 0 [0xA7, 1, 2]).setReg 1 5).setReg 2 5)) (fun t => (t.fl, t.pc)) =
    some (1, 3) := by decide
theorem test_cmp_V14 : after (step ((((at_ 0 [0xA7, 1, 2]).setReg 1 5).setReg 2 6).setFl 1)) (fun t => t.fl) =
    some 0 := by decide
theorem test_add_V16 : after (stepWith tableConfig (((at_ 0 [0xA0, 0, 1]).setReg 0 200).setReg 1 100))
    (fun t => (t.reg 0, t.pc)) = some (44, 3) := by decide
theorem test_add_V18 : after (step (at_ 6 [0xA0, 0, 1])) (fun t => (t.run, t.pc)) =
    some (.faulted (.unhandledInstruction 0xA0), 6) := by decide
theorem test_push_V21d : after (step ((at_ 0 [0x45, 7]).setReg 4 6)) (fun t => (t.reg 7, t.mem.read 0xF3, t.pc)) =
    some (0xF3, 0xF3, 2) := by decide
theorem test_push_V21b : after (step (((at_ 0 [0x45, 0]).setReg 7 0).setReg 4 0)) (fun t => (t.run, t.reg 7)) =
    some (.faulted (.stackOverflow 0 0), 0) := by decide
theorem test_pop_V22 : after (step ((placeBytes ((at_ 0xF3 []).setReg 7 0xF3) [0x2A]).setPc 0 |> (placeBytes · [0x46, 1])))
    (fun t => (t.reg 1, t.reg 7, t.mem.read 0xF3)) = some (0x2A, 0xF4, 0x2A) := by decide
theorem test_pop_V23c : after (step ((placeBytes ((at_ 0xF3 []).setReg 7 0xF3) [0x50]).setPc 0 |> (placeBytes · [0x46, 7])))
    (fun t => (t.reg 7, t.pc)) = some (0x51, 2) := by decide
theorem test_jmp_V24 : after (step ((at_ 8 [0x54, 1]).setReg 1 6)) (fun t => t.pc) = some 6 := by decide
theorem test_jmp_V30 : after (step ((at_ 3 [0x54, 0]).setReg 0 0xFF)) (fun t => (t.pc, t.run)) =
    some (0xFF, .running) := by decide
theorem test_jeq_V26 : after (step ((at_ 12 [0x55, 3]).setReg 3 15)) (fun t => t.pc) = some 14 := by decide
theorem test_jeq_V29 : after (step (at_ 0 [0x55, 9])) (fun t => (t.run, t.pc)) =
    some (.faulted (.invalidRegisterIndex 9), 0) := by decide
theorem test_jne_V27 : after (step ((at_ 20 [0x56, 3]).setReg 3 12)) (fun t => t.pc) = some 12 := by decide
theorem test_jne_V28 : after (step (((at_ 20 [0x56, 3]).setReg 3 12).setFl 1)) (fun t => t.pc) = some 22 := by decide

/-- V36 and V37: the pre-fetch before the lookup, and the one fault after a write. -/
theorem test_dispatch_V36 : after (step (at_ 254 [0xFF, 0])) (fun t => t.run) =
    some (.faulted (.addressOutOfRange 256)) := by decide
theorem test_advance_V37 : after (step ((at_ 253 [0x82, 0, 7]).setReg 0 0x55)) (fun t => (t.reg 0, t.run, t.pc)) =
    some (7, .faulted (.addressOutOfRange 256), 253) := by decide

/-- V38: no step in a terminal state. -/
theorem test_halted_V38 : after (step (State.reset.setRun .halted)) (fun t => t.run) = none := by decide

/-- What reset leaves steps as program P8's empty image does, and the host's word runs as the first instruction. -/
theorem test_reset_first_step : after (step State.reset) (fun t => (t.run, t.pc)) =
    some (.faulted (.unhandledInstruction 0), 0) := by decide
theorem test_withFetchWord : after (step (State.reset.withFetchWord 24 0x080082)) (fun t => (t.reg 0, t.pc)) =
    some (8, 3) := by decide

/-- The launch state of P1, its status and its dump. -/
theorem test_launch_P1 :
    (match launch (some [0x82, 0, 8, 0x47, 0, 1]) with
      | .ok t => some (t.reg 4, statusCode t.run, (dump t).bytes)
      | .error _ => none) = some (6, none, [some 0x82, some 0, some 8]) := by decide

/-! ## Witnesses: a state and operands that meet all hypotheses of each statement -/

/-- An assignment that is not the default and meets the shape constraints. -/
def otherConfig : Config := { tableConfig with push := 0x60, mul := 0x8E, jmp := 0x70 }

/-- One legal instruction of each row. -/
def allInstrs : List Instr :=
  [.ldi 7 0xFF, .prn 7, .hlt, .mul 7 4, .push 7, .pop 7, .cmp 1 1, .jmp 7, .jeq 7, .jne 7, .add 0 1]

theorem witness_DecodeOfEncodeIsIdentity :
    ValidAssignment otherConfig ∧ ∀ i ∈ allInstrs, i.mnemonic ∈ mappedMnemonics otherConfig := by decide

theorem witness_DecodedBytesAreTheEncoding :
    decode otherConfig [0x60, 0xFF, 0x82] = .ok (.push 0xFF, [0x82]) := by rfl

/-- A handler that leaves `pc` and one that writes it, at the last address their length allows. -/
theorem witness_AdvanceAgreesAtEveryValidAssignment :
    let s := (at_ 253 [0x60, 1]).setReg 4 2
    let u := at_ 253 [0x70, 1]
    ValidAssignment otherConfig ∧ Mnemonic.push ∈ mappedMnemonics otherConfig ∧ Mnemonic.jmp ∈ mappedMnemonics otherConfig ∧
      s.run = .running ∧ nextInstr otherConfig s = some (.push 1) ∧ after (exec (.push 1) s) faultOf = some none ∧
      u.run = .running ∧ nextInstr otherConfig u = some (.jmp 1) ∧ after (exec (.jmp 1) u) faultOf = some none ∧
      s.pc.toNat + (operandCount .push + 1) ≤ 255 ∧ u.pc.toNat + (operandCount .jmp + 1) ≤ 255 := by decide

/-- The last address a handler runs at, with a byte above 7 as operand. -/
theorem witness_StepRunsTheDecodedInstruction :
    let s := at_ 253 [0x82, 9, 7]
    s.run = .running ∧ s.pc.toNat ≤ 253 ∧
      decode defaultConfig [s.mem.read s.pc.toNat, s.mem.read (s.pc.toNat + 1), s.mem.read (s.pc.toNat + 2)] =
        .ok (.ldi 9 7, []) ∧
      after (exec (.ldi 9 7) s) faultOf = some (some (.invalidRegisterIndex 9)) ∧
      after (exec (.ldi 1 7) s) faultOf = some none := ⟨rfl, by decide, rfl, by decide, by decide⟩

/-- Off the shape constraints of 30_encoding.md R51: MUL has a byte that says one operand, and JMP one that does not say it
writes `pc`. -/
def shapeless : Config := { defaultConfig with mul := 0x42, jmp := 0x43 }

/-- The advance is the byte's and not the instruction's: MUL at 0x42 moves `pc` by 2, and after JMP at 0x43 the engine adds
2 to the target (R46, R51). -/
theorem test_advance_from_the_byte :
    after (stepWith shapeless (at_ 0 [0x42, 0, 1])) (fun t => t.pc) = some 2 ∧
      after (stepWith shapeless ((at_ 0 [0x43, 1]).setReg 1 0x10)) (fun t => t.pc) = some 0x12 := by decide

/-- Bit 4 set, and bit 4 clear with the sum at 255. -/
theorem witness_AdvanceIsDecidedByTheFetchedByte :
    let s := at_ 253 [0x54, 1]
    let u := at_ 253 [0x47, 1]
    s.run = .running ∧ nextInstr defaultConfig s = some (.jmp 1) ∧ after (exec (.jmp 1) s) faultOf = some none ∧
      u.run = .running ∧ nextInstr defaultConfig u = some (.prn 1) ∧ after (exec (.prn 1) u) faultOf = some none ∧
      (0x54 : Byte).getLsbD 4 = true ∧ (0x47 : Byte).getLsbD 4 = false ∧
      253 + ((0x47 : Byte).extractLsb 7 6).toNat + 1 = 255 := by decide

/-- The sum at 256, after LDI at 253 and after a jump to 254 whose byte is off the shape constraints. -/
theorem witness_AdvanceThatDoesNotFitFaults :
    let s := at_ 253 [0x82, 0, 7]
    let u := (at_ 0 [0x43, 1]).setReg 1 254
    s.run = .running ∧ nextInstr defaultConfig s = some (.ldi 0 7) ∧
      after (exec (.ldi 0 7) s) (fun t => (faultOf t, t.pc.toNat)) = some (none, 253) ∧
      u.run = .running ∧ nextInstr shapeless u = some (.jmp 1) ∧
      after (exec (.jmp 1) u) (fun t => (faultOf t, t.pc.toNat)) = some (none, 254) ∧
      (0x82 : Byte).getLsbD 4 = false ∧ (0x43 : Byte).getLsbD 4 = false ∧
      253 + ((0x82 : Byte).extractLsb 7 6).toNat + 1 = 256 ∧ 254 + ((0x43 : Byte).extractLsb 7 6).toNat + 1 = 256 := by
  decide

/-- One byte that two assignments give to two instructions. -/
theorem witness_AdvanceDoesNotDependOnTheDispatchTable :
    let d : Config := { defaultConfig with pop := 0x42 }
    let s := at_ 3 [0x42, 0, 1]
    nextInstr shapeless s = some (.mul 0 1) ∧ nextInstr d s = some (.pop 0) ∧ writesPc .mul = false ∧
      writesPc .pop = false ∧ after (stepWith shapeless s) faultOf = some none ∧
      after (stepWith d s) faultOf = some none := by decide

theorem witness_DispatchLooksUpTheWholeByte :
    let s := at_ 253 [0x60, 1, 0]
    ValidAssignment otherConfig ∧ s.run = .running ∧ s.pc.toNat ≤ 253 ∧
      (s.mem.read s.pc.toNat, Mnemonic.push) ∈ dispatchTable otherConfig ∧
      (at_ 253 [0x45]).mem.read 253 ∉ dispatchKeys otherConfig := by decide

theorem witness_StepEnabledExactlyWhileRunning :
    (State.reset.setRun .halted).run ≠ .running ∧
      Reaches (State.reset.setRun .halted) (State.reset.setRun .halted) := ⟨by decide, .refl⟩

theorem witness_PrefetchFaultsAtTheTopOfMemory :
    (at_ 254 [1]).run = .running ∧ 254 ≤ (at_ 254 [1]).pc.toNat ∧
      (at_ 255 [0xFF]).run = .running ∧ 254 ≤ (at_ 255 [0xFF]).pc.toNat := by decide

theorem witness_UnmappedBytesAreUnhandled :
    let s := at_ 253 [0x50]
    let t := at_ 0 [0xA0, 0, 1]
    s.run = .running ∧ s.pc.toNat ≤ 253 ∧ t.run = .running ∧ t.pc.toNat ≤ 253 ∧
      s.mem.read s.pc.toNat ∉ [(0x82 : Byte), 0x47, 0x01, 0xA2, 0xA7, 0x45, 0x46, 0x54, 0x55, 0x56] ∧
      s.mem.read s.pc.toNat ≠ 0xA0 ∧ t.mem.read t.pc.toNat = 0xA0 := by decide

/-! Of the completion statements only those of JEQ, JNE and PUSH have hypotheses; each is met at their bounds. -/

theorem witness_JeqCompletes : (at_ 253 [0x55, 7]).pc.toNat ≤ 253 := by decide
theorem witness_JneCompletes : (at_ 253 [0x56, 7]).pc.toNat ≤ 253 := by decide

/-- The push that makes the stack pointer equal to the boundary. -/
theorem witness_PushCompletes :
    let s := ((at_ 253 [0x45, 0, 0]).setReg 4 0xF3)
    s.mem.wf ∧ (s.reg boundIndex).toNat < (s.reg spIndex).toNat := by decide

/-- Every row completes a step with no fault, with Equal clear and with Equal set. -/
theorem witness_PcAfterEachInstruction :
    ValidAssignment otherConfig ∧ ∀ i ∈ allInstrs, ∀ f ∈ [(0 : Byte), 1],
      let s := (at_ 16 (encode otherConfig i)).setFl f
      nextInstr otherConfig s = some i ∧ after (stepWith otherConfig s) faultOf = some none := by decide

theorem witness_RegisterWritersFrame :
    (∃ t, exec (.ldi 3 0x55) (at_ 16 []) = .next t) ∧ (∃ t, exec (.mul 3 4) (at_ 16 []) = .next t) ∧
      ∃ t, exec (.add 9 4) (at_ 16 []) = .next t := ⟨⟨_, rfl⟩, ⟨_, rfl⟩, ⟨_, rfl⟩⟩

theorem witness_RegisterReadersFrame :
    (∃ t, exec (.prn 3) (at_ 16 []) = .next t) ∧ (∃ t, exec .hlt (at_ 16 []) = .next t) ∧
      (∃ t, exec (.cmp 3 4) (at_ 16 []) = .next t) ∧ (∃ t, exec (.jmp 3) (at_ 16 []) = .next t) ∧
      (∃ t, exec (.jeq 3) (at_ 16 []) = .next t) ∧ ∃ t, exec (.jne 3) (at_ 16 []) = .next t :=
  ⟨⟨_, rfl⟩, ⟨_, rfl⟩, ⟨_, rfl⟩, ⟨_, rfl⟩, ⟨_, rfl⟩, ⟨_, rfl⟩⟩

theorem witness_PushFrame : (∃ t, exec (.push 3) (at_ 16 []) = .next t) ∧ pushAddress (at_ 16 []) = 0xF3 :=
  ⟨⟨_, rfl⟩, by decide⟩

theorem witness_PopFrame : (∃ t, exec (.pop 3) (at_ 16 []) = .next t) ∧ ∃ t, exec (.pop 7) (at_ 16 []) = .next t :=
  ⟨⟨_, rfl⟩, ⟨_, rfl⟩⟩

/-- For each kind of instruction: a writer of the flags, a reader with other flags of the same bit 0, and one that is
neither. -/
theorem witness_FlagsHaveOneWriterAndTwoReaders :
    (∃ t, exec (.cmp 3 4) (at_ 16 []) = .next t) ∧ (∃ t, exec (.jeq 3) (at_ 16 []) = .next t) ∧
      equalFlag 0xFE = equalFlag (at_ 16 []).fl ∧ (∃ t, exec (.pop 3) (at_ 16 []) = .next t) ∧
      ∀ ra, Instr.pop 3 ≠ .jeq ra ∧ Instr.pop 3 ≠ .jne ra :=
  ⟨⟨_, rfl⟩, ⟨_, rfl⟩, by decide, ⟨_, rfl⟩, fun _ => ⟨by simp, by simp⟩⟩

theorem witness_OutputIsAppendOnlyAndUnread :
    (∃ t, exec (.prn 7) (at_ 16 []) = .next t) ∧ ∃ t, exec (.push 7) (at_ 16 []) = .next t := ⟨⟨_, rfl⟩, ⟨_, rfl⟩⟩

/-- A step that stores, with a boundary above 0, and one that does not. -/
theorem witness_OnlyPushStoresAndNeverBelowTheBoundary :
    (∃ t, stepWith defaultConfig ((at_ 0 [0x45, 0]).setReg 4 2) = .next t) ∧
      ∃ t, stepWith defaultConfig (at_ 0 [0x47, 0]) = .next t := ⟨⟨_, rfl⟩, ⟨_, rfl⟩⟩

theorem witness_InvariantKeptByEveryStep :
    Inv (at_ 0 [0x45, 0]) ∧ ∃ t, stepWith defaultConfig (at_ 0 [0x45, 0]) = .next t := ⟨by decide, ⟨_, rfl⟩⟩

/-- The boundary at its lowest and its highest. -/
theorem witness_StackDisciplineKeptByEveryStep :
    ∀ n ∈ [(0 : Byte), 2, 0xF4],
      let s := (at_ 0 [0x45, 7]).setReg 4 n
      StackInv n.toNat s ∧ nextInstr defaultConfig s = some (.push 7) ∧ keepsStackRegisters (.push 7) ∧
        (after (stepWith defaultConfig s) fun _ => ()) = some () := by
  intro n hn
  fin_cases hn <;> exact ⟨by unfold StackInv; decide, by decide, by unfold keepsStackRegisters; decide, by decide⟩

theorem witness_RunEndsInAtMostOneState :
    ∃ t, EndsAt (at_ 5 [1]) t ∧ t.run = .halted := by
  have h : ∃ t, step (at_ 5 [1]) = .next t ∧ t.run = .halted := ⟨_, rfl, rfl⟩
  obtain ⟨t, ht, hr⟩ := h
  exact ⟨t, ⟨.step .refl ht, by unfold Ended; rw [hr]; decide⟩, hr⟩

theorem witness_PushThenPopRoundTrips :
    let s := (at_ 16 [0x45, 0, 0x46, 4]).setReg 4 0xF3
    ValidAssignment defaultConfig ∧ (0 : Fin 8) ≠ spIndex ∧ (4 : Fin 8) ≠ spIndex ∧ s.mem.wf ∧ s.run = .running ∧
      (s.reg boundIndex).toNat < (s.reg spIndex).toNat ∧ (s.reg spIndex).toNat ≤ 0xF4 ∧
      nextInstr defaultConfig s = some (.push (regByte 0)) ∧
      after (stepWith defaultConfig s) (nextInstr defaultConfig) = some (some (.pop (regByte 4))) := by decide

/-- CMP with a JEQ after it and with a JNE after it, the second at the highest address a JNE can stand after a CMP. -/
theorem witness_CompareDecidesTheBranch :
    let s := at_ 0 [0xA7, 1, 2, 0x55, 3]
    let u := (at_ 250 [0xA7, 1, 2, 0x56, 3]).setReg 1 5
    ValidAssignment defaultConfig ∧ s.run = .running ∧ s.pc.toNat ≤ 252 ∧ u.run = .running ∧ u.pc.toNat ≤ 252 ∧
      nextInstr defaultConfig s = some (.cmp (regByte 1) (regByte 2)) ∧
      nextInstr defaultConfig u = some (.cmp (regByte 1) (regByte 2)) ∧
      after (stepWith defaultConfig s) (nextInstr defaultConfig) = some (some (.jeq (regByte 3))) ∧
      after (stepWith defaultConfig u) (nextInstr defaultConfig) = some (some (.jne (regByte 3))) ∧
      s.reg 1 = s.reg 2 ∧ u.reg 1 ≠ u.reg 2 := by decide

theorem witness_PushedByteIsFetched :
    let s := ((at_ 3 [0x45, 0]).setReg 7 254).setReg 0 1
    s.mem.wf ∧ (0 : Fin 8) ≠ spIndex ∧ (s.reg boundIndex).toNat < (s.reg spIndex).toNat ∧
      (s.reg spIndex).toNat ≤ 254 ∧ ∃ t, exec (.push (regByte 0)) s = .next t :=
  ⟨by decide, by decide, by decide, by decide, _, rfl⟩

/-- One bad operand, a bad second operand, two bad operands. -/
theorem witness_IllegalRegisterOperandFaultsFirst :
    [Instr.jeq 8, .ldi 0xFF 0, .mul 7 8, .cmp 9 10, .push 8].map
        (fun i => (registerOperands i).find? fun w => decide (7 < w.toNat)) =
      [some (8 : Byte), some 0xFF, some 8, some 9, some 8] := by decide

theorem witness_StackOverflowFaultsPreciselyAndOnlyInPush :
    let s := (at_ 0 [0x45, 0]).setReg 4 0xF4
    ¬((s.reg spIndex).toNat : Int) - 1 ≥ ((s.reg boundIndex).toNat : Int) ∧ s.run = .running ∧
      after (exec (.push 0) s) (fun t => t.run) = some (.faulted (.stackOverflow 0xF4 0xF4)) := by decide

/-- Each of the four three-byte instructions at 253. -/
theorem witness_AdvanceFaultKeepsTheEffects :
    ValidAssignment tableConfig ∧
      ∀ i ∈ [Instr.ldi (regByte 1) 7, .mul (regByte 1) (regByte 2), .add (regByte 1) (regByte 2),
          .cmp (regByte 1) (regByte 2)],
        let s := at_ 253 (encode tableConfig i)
        s.run = .running ∧ s.pc.toNat = 253 ∧ nextInstr tableConfig s = some i := by decide

/-- A state for each fault of the list in its order, and one with none. -/
theorem witness_StepRaisesTheFirstFaultOfTheList : ValidAssignment defaultConfig ∧
    [at_ 255 [1], at_ 254 [0xFF], at_ 253 [0xFF], at_ 0 [0xA2, 9, 10], at_ 0 [0xA7, 7, 10], (at_ 0 [0x45, 0]).setReg 4 0xF4,
        at_ 253 [0x82, 0, 7], at_ 252 [0x82, 0, 7]].map
        (fun s => (after (stepWith defaultConfig s) fun _ => ()).isSome) = List.replicate 8 true := by decide

/-- A faulting step away from 253 and one at 253. -/
theorem witness_FaultsArePrecise : ValidAssignment defaultConfig ∧
    after (stepWith defaultConfig (at_ 0 [0xFF])) faultOf = some (some (.unhandledInstruction 0xFF)) ∧
      after (stepWith defaultConfig (at_ 253 [0x82, 0, 7])) faultOf = some (some (.addressOutOfRange 256)) := by decide

/-- A PUSH at 253 that just fits, and a three-byte instruction at 252. -/
theorem witness_ProgramObligationsMakeAStepSafe :
    let s := (at_ 253 [0x45, 7]).setReg 4 0xF3
    let u := at_ 252 [0x82, 7, 0xFF]
    ValidAssignment defaultConfig ∧ s.run = .running ∧ nextInstr defaultConfig s = some (.push 7) ∧
      (Instr.push 7).wellFormed = true ∧
      s.pc.toNat + (Instr.push 7).operands.length ≤ 254 ∧ (s.reg boundIndex).toNat < (s.reg spIndex).toNat ∧
      u.run = .running ∧ nextInstr defaultConfig u = some (.ldi 7 0xFF) ∧ (Instr.ldi 7 0xFF).wellFormed = true ∧
      u.pc.toNat + (Instr.ldi 7 0xFF).operands.length ≤ 254 ∧ isPush (.ldi 7 0xFF) = false := by decide

theorem witness_UnsupportedOperationIsUnreachable :
    ∃ t, stepWith defaultConfig (at_ 0 [0xA2, 0, 1]) = .next t := ⟨_, rfl⟩

theorem witness_CanonicalMemoryIsDeterminedByItsCells :
    let m : Memory := [(3, 1), (255, 0xFF)]
    m.wf ∧ ∀ addr, addr < 256 → m.read addr = m.read addr := ⟨by decide, fun _ _ => rfl⟩

/-- The empty image, over a cell already written, and one whose last cell is named. -/
theorem witness_LoadWritesTheImageAndItsLength :
    let s := at_ 0 [7]
    s.mem.wf ∧ ([] : List Byte).length ≤ 255 ∧ [(0x82 : Byte), 0, 8].length ≤ 255 ∧
      2 < [(0x82 : Byte), 0, 8].length ∧ (2 : Fin 8) ≠ boundIndex := by decide

/-- Lengths where the clauses meet: 0xF4, 0xF5, 255 and 256. -/
theorem witness_LaunchStateOfAnImage :
    (List.replicate 0xF4 (1 : Byte)).length ≤ 0xF4 ∧ (List.replicate 0xF5 (1 : Byte)).length ≤ 255 ∧
      (List.replicate 255 (1 : Byte)).length ≤ 255 ∧ 255 < (List.replicate 256 (1 : Byte)).length := by
  simp only [List.length_replicate]; omega

end Sys2Proof.Tests
end

section
/-! SUPPORT. The flags and the output trace as parts of the state that an instruction does not read: the noninterference
statements of 10_state.md R18 and R23. -/

namespace Sys2Proof.Machine

/-! ## The converse of `exec_cases` -/

/-- The first register operand above 7 ends the handler with its fault, whatever the instruction and the state
(60_exceptions.md R105). -/
theorem exec_illegal_operand {i : Instr} {v : Byte}
    (h : (registerOperands i).find? (fun w => decide (7 < w.toNat)) = some v) (s : State) :
    exec i s = .next (s.setRun (.faulted (.invalidRegisterIndex v))) := by
  have hv : 7 < v.toNat := by simpa using List.find?_some h
  have one {w : Byte} (hw : [w].find? (fun w => decide (7 < w.toNat)) = some v) : w = v :=
    (List.mem_singleton.1 (List.mem_of_find?_eq_some hw)).symm
  have two {wa wb : Byte} (hw : [wa, wb].find? (fun w => decide (7 < w.toNat)) = some v) :
      wa = v ∨ ∃ a, wa = regByte a ∧ wb = v := by
    obtain ⟨a, rfl⟩ | ha := regByte_or wa
    · rw [List.find?_cons_of_neg (by simpa using regByte_legal a)] at hw
      exact .inr ⟨a, rfl, one hw⟩
    · rw [List.find?_cons_of_pos (by simpa using ha)] at hw
      exact .inl (Option.some.inj hw)
  cases i with
  | hlt => cases h
  | ldi ra imm => obtain rfl := one h; exact (exec_illegal_one s hv imm).1
  | prn ra => obtain rfl := one h; exact (exec_illegal_one s hv 0).2.1
  | push ra => obtain rfl := one h; exact (exec_illegal_one s hv 0).2.2.1
  | pop ra => obtain rfl := one h; exact (exec_illegal_one s hv 0).2.2.2.1
  | jmp ra => obtain rfl := one h; exact (exec_illegal_one s hv 0).2.2.2.2.1
  | jeq ra => obtain rfl := one h; exact (exec_illegal_one s hv 0).2.2.2.2.2.1
  | jne ra => obtain rfl := one h; exact (exec_illegal_one s hv 0).2.2.2.2.2.2
  | mul ra rb =>
    obtain rfl | ⟨a, rfl, rfl⟩ := two h
    · exact (exec_illegal_left s hv rb).1
    · exact (exec_illegal_right a s hv).1
  | cmp ra rb =>
    obtain rfl | ⟨a, rfl, rfl⟩ := two h
    · exact (exec_illegal_left s hv rb).2.1
    · exact (exec_illegal_right a s hv).2.1
  | add ra rb =>
    obtain rfl | ⟨a, rfl, rfl⟩ := two h
    · exact (exec_illegal_left s hv rb).2.2
    · exact (exec_illegal_right a s hv).2.2

/-- `ExecCase` is exactly what `exec` does: to run an instruction at another state it is enough to name its case there. -/
theorem exec_of_case {i : Instr} {s t : State} (h : ExecCase i s t) : exec i s = .next t := by
  cases h with
  | illegal h => exact exec_illegal_operand h s
  | ldi => exact exec_ldi ..
  | prn => exact exec_prn ..
  | hlt => exact exec_hlt _
  | mul => exact exec_mul ..
  | add => exact exec_add ..
  | cmp => exact exec_cmp ..
  | overflow hf => exact exec_push_overflow _ _ hf
  | push hf => exact exec_push_fits _ _ hf
  | pop => exact exec_pop ..
  | jmp => exact exec_jmp ..
  | jeqTaken he => rw [exec_jeq, if_pos he]
  | jeqNotTaken he h => rw [exec_jeq, he, if_neg Bool.false_ne_true, h]
  | jneTaken he => rw [exec_jne, he, if_neg Bool.false_ne_true]
  | jneNotTaken he h => rw [exec_jne, if_pos he, h]

/-! ## The two parts of the state at other values -/

/-- The state with other flags and another output trace. -/
def State.withFlagsAndOut (s : State) (f : Byte) (o : List Byte) : State := { s with fl := f, out := o }

theorem incrementSp_withFlagsAndOut (s : State) (f : Byte) (o : List Byte) :
    incrementSp (s.withFlagsAndOut f o) = (incrementSp s).withFlagsAndOut f o := by
  have hreg : (s.withFlagsAndOut f o).reg spIndex = s.reg spIndex := rfl
  unfold incrementSp
  rw [hreg]
  split <;> rfl

theorem exec_pop_withFlagsAndOut (a : Fin 8) (s : State) (f : Byte) (o : List Byte) :
    exec (.pop (regByte a)) (s.withFlagsAndOut f o) =
      .next ((incrementSp (s.setReg a (s.mem.read (s.reg spIndex).toNat))).withFlagsAndOut f o) := by
  rw [exec_pop, ← incrementSp_withFlagsAndOut]; rfl

theorem movePc_withFlagsAndOut {n : Nat} {s t : State} (h : movePc n s .next = .next t) (f : Byte) (o : List Byte) :
    movePc n (s.withFlagsAndOut f o) .next = .next (t.withFlagsAndOut f o) := by
  obtain ⟨hn, rfl⟩ | ⟨hn, rfl⟩ := movePc_cases h
  · exact movePc_inside _ _ hn
  · exact movePc_outside _ _ hn

/-! ## What an instruction reads and writes of the two (10_state.md R18, R23) -/

/-- The flags `f` show the instruction what `fl` shows it: JEQ and JNE read bit 0, the others nothing. -/
def SameFlagsFor (i : Instr) (fl f : Byte) : Prop :=
  equalFlag f = equalFlag fl ∨ ∀ ra, i ≠ .jeq ra ∧ i ≠ .jne ra

theorem SameFlagsFor.refl (i : Instr) (fl : Byte) : SameFlagsFor i fl fl := .inl rfl

theorem SameFlagsFor.jeq {ra fl f : Byte} (h : SameFlagsFor (.jeq ra) fl f) : equalFlag f = equalFlag fl :=
  h.resolve_right fun hn => (hn ra).1 rfl

theorem SameFlagsFor.jne {ra fl f : Byte} (h : SameFlagsFor (.jne ra) fl f) : equalFlag f = equalFlag fl :=
  h.resolve_right fun hn => (hn ra).2 rfl

/-- Running the instruction from `s` to `t` leaves the flags and the output trace, and from any others (the flags being the
same to it) it comes to the same state but for them, and leaves them too. -/
structure LeavesFlagsAndOut (i : Instr) (s t : State) : Prop where
  fl : t.fl = s.fl
  out : t.out = s.out
  elsewhere : ∀ f o, SameFlagsFor i s.fl f → exec i (s.withFlagsAndOut f o) = .next (t.withFlagsAndOut f o)

theorem LeavesFlagsAndOut.other_flags {i : Instr} {s t : State} (h : LeavesFlagsAndOut i s t) {f : Byte}
    (hf : SameFlagsFor i s.fl f) : exec i (s.withFlagsAndOut f s.out) = .next (t.withFlagsAndOut f t.out) := by
  rw [h.out]; exact h.elsewhere f s.out hf

theorem LeavesFlagsAndOut.other_out {i : Instr} {s t : State} (h : LeavesFlagsAndOut i s t) (o : List Byte) :
    exec i (s.withFlagsAndOut s.fl o) = .next (t.withFlagsAndOut t.fl o) := by
  rw [h.fl]; exact h.elsewhere s.fl o (.refl i s.fl)

theorem leavesFlagsAndOut_jeq {a : Fin 8} {s t : State} (he : equalFlag s.fl = false)
    (h : movePc (s.pc.toNat + 2) s .next = .next t) : LeavesFlagsAndOut (.jeq (regByte a)) s t := by
  obtain ⟨-, hfl, hout, -⟩ := movePc_rest h
  exact ⟨hfl, hout, fun f o hf => exec_of_case (.jeqNotTaken (hf.jeq.trans he) (movePc_withFlagsAndOut h f o))⟩

theorem leavesFlagsAndOut_jne {a : Fin 8} {s t : State} (he : equalFlag s.fl = true)
    (h : movePc (s.pc.toNat + 2) s .next = .next t) : LeavesFlagsAndOut (.jne (regByte a)) s t := by
  obtain ⟨-, hfl, hout, -⟩ := movePc_rest h
  exact ⟨hfl, hout, fun f o hf => exec_of_case (.jneNotTaken (hf.jne.trans he) (movePc_withFlagsAndOut h f o))⟩

/-- The flags and the output trace have one writer each, CMP and PRN; every other effect leaves and ignores both. -/
theorem exec_flagsAndOut_cases {i : Instr} {s t : State} (h : exec i s = .next t) :
    (∃ a b, i = .cmp (regByte a) (regByte b) ∧ t = s.setFl (setEqualFlag s.fl (s.reg a == s.reg b))) ∨
      (∃ a, i = .prn (regByte a) ∧ t = s.emit (s.reg a)) ∨ LeavesFlagsAndOut i s t := by
  cases exec_cases h with
  | cmp => exact .inl ⟨_, _, rfl, rfl⟩
  | prn => exact .inr (.inl ⟨_, rfl, rfl⟩)
  | illegal hv => exact .inr (.inr ⟨rfl, rfl, fun _ _ _ => exec_illegal_operand hv _⟩)
  | ldi => exact .inr (.inr ⟨rfl, rfl, fun _ _ _ => exec_of_case .ldi⟩)
  | hlt => exact .inr (.inr ⟨rfl, rfl, fun _ _ _ => exec_of_case .hlt⟩)
  | mul => exact .inr (.inr ⟨rfl, rfl, fun _ _ _ => exec_of_case .mul⟩)
  | add => exact .inr (.inr ⟨rfl, rfl, fun _ _ _ => exec_of_case .add⟩)
  | overflow hp => exact .inr (.inr ⟨rfl, rfl, fun _ _ _ => exec_of_case (.overflow hp)⟩)
  | push hp => exact .inr (.inr ⟨rfl, rfl, fun _ _ _ => exec_of_case (.push hp)⟩)
  | pop => exact .inr (.inr ⟨incrementSp_fl _, incrementSp_out _, fun f o _ => exec_pop_withFlagsAndOut _ s f o⟩)
  | jmp => exact .inr (.inr ⟨rfl, rfl, fun _ _ _ => exec_of_case .jmp⟩)
  | jeqTaken he => exact .inr (.inr ⟨rfl, rfl, fun _ _ hf => exec_of_case (.jeqTaken (hf.jeq.trans he))⟩)
  | jneTaken he => exact .inr (.inr ⟨rfl, rfl, fun _ _ hf => exec_of_case (.jneTaken (hf.jne.trans he))⟩)
  | jeqNotTaken he hm => exact .inr (.inr (leavesFlagsAndOut_jeq he hm))
  | jneNotTaken he hm => exact .inr (.inr (leavesFlagsAndOut_jne he hm))

/-! ## The statements -/

/-- CMP alone writes the flags, and keeps their reserved bits. -/
theorem exec_writes_flags {i : Instr} {s t : State} (h : exec i s = .next t) :
    t.fl = s.fl ∨ ((∃ ra rb, i = .cmp ra rb) ∧ reservedFlags t.fl = reservedFlags s.fl) := by
  obtain ⟨a, b, rfl, rfl⟩ | ⟨a, rfl, rfl⟩ | hl := exec_flagsAndOut_cases h
  · exact .inr ⟨⟨_, _, rfl⟩, reservedFlags_setEqualFlag _ _⟩
  · exact .inl rfl
  · exact .inl hl.fl

/-- From flags that are the same to it an instruction comes to the same state but for the flags. -/
theorem exec_other_flags {i : Instr} {s t : State} (h : exec i s = .next t) {f : Byte} (hf : SameFlagsFor i s.fl f) :
    ∃ g, exec i (s.withFlagsAndOut f s.out) = .next (t.withFlagsAndOut g t.out) := by
  obtain ⟨a, b, rfl, rfl⟩ | ⟨a, rfl, rfl⟩ | hl := exec_flagsAndOut_cases h
  · exact ⟨_, exec_cmp ..⟩
  · exact ⟨f, exec_prn ..⟩
  · exact ⟨f, hl.other_flags hf⟩

/-- Settles O29: the writer by `exec_writes_flags`, the readers by `exec_other_flags`; the host's result has no flags. -/
theorem flagsHaveOneWriterAndTwoReaders : Obligations.FlagsHaveOneWriterAndTwoReaders :=
  fun _ _ _ h => ⟨exec_writes_flags h, fun _ hf => exec_other_flags h hf, fun _ => rfl⟩

/-- Settles O30: CMP and every effect that leaves the output append nothing, PRN appends its register's byte. -/
theorem outputIsAppendOnlyAndUnread : Obligations.OutputIsAppendOnlyAndUnread := by
  refine ⟨rfl, fun i s t h => ?_⟩
  obtain ⟨a, b, rfl, rfl⟩ | ⟨a, rfl, rfl⟩ | hl := exec_flagsAndOut_cases h
  · refine ⟨[], by simp, .inl rfl, fun o => ?_⟩
    rw [List.append_nil]; exact exec_cmp ..
  · exact ⟨[s.reg a], rfl, .inr ⟨a, rfl, rfl⟩, fun _ => exec_prn ..⟩
  · refine ⟨[], by simp [hl.out], .inl rfl, fun o => ?_⟩
    rw [List.append_nil]
    exact hl.other_out o

end Sys2Proof.Machine
end

section
/-! SUPPORT. The Instruction Decoder's two outputs as bit fields of the opcode byte: 30_encoding.md R45. -/

namespace Sys2Proof

theorem setsPC_eq_getLsbD (op : Byte) : setsPC op = op.getLsbD 4 := by
  have h : op >>> 4 &&& 1 = (BitVec.ofBool (op.getLsbD 4)).setWidth 8 := by
    rw [← BitVec.getLsbD_ushiftRight op 4 0]
    exact BitVec.and_one_eq_setWidth_ofBool_getLsbD
  rw [setsPC, h]
  cases op.getLsbD 4 <;> rfl

/-- The shift by 6 leaves two bits of the byte, so the field's width cuts nothing off. -/
theorem advance_eq_extractLsb (op : Byte) : advance op = (op.extractLsb 7 6).toNat + 1 := by
  have h : op.toNat >>> 6 < 2 ^ 2 := by omega
  rw [advance, BitVec.toNat_ushiftRight, BitVec.extractLsb_toNat, Nat.mod_eq_of_lt h]

theorem one_le_advance (op : Byte) : 1 ≤ advance op := Nat.le_add_left ..

theorem advance_le_four (op : Byte) : advance op ≤ 4 := by
  rw [advance_eq_extractLsb]
  exact (op.extractLsb 7 6).isLt

/-- Settles O4: the two formulas and the bounds that a two-bit field plus one has. -/
theorem decoderReadsBitFourAndTopBits : Obligations.DecoderReadsBitFourAndTopBits :=
  fun op => ⟨setsPC_eq_getLsbD op, advance_eq_extractLsb op, one_le_advance op, advance_le_four op⟩

end Sys2Proof
end

section
/-! SUPPORT. The engine's cycle: when a step is enabled, which handler the fetched byte selects, and the advance after it
(40_engine_cycle.md R61, R62, R64, R66). -/

namespace Sys2Proof.Machine

/-! ## The advance after a handler that returned -/

theorem faultOf_eq_none {s : State} : faultOf s = none ↔ ∀ f, s.run ≠ .faulted f := by
  unfold faultOf
  split
  · next f hf => simp [hf]
  · next h => simp [h]
  · next h => simp [h]

/-- Where the handler returned, the rest of the step is item 6 alone. -/
theorem stepWith_returned {c : Config} {s u : State} {i : Instr} (hr : s.run = .running) (hi : nextInstr c s = some i)
    (hu : exec i s = .next u) (hf : faultOf u = none) : stepWith c s = advancePc (s.mem.read s.pc.toNat) u := by
  rw [stepWith_nextInstr hr hi, hu, completeStep_returned _ (faultOf_eq_none.1 hf)]

/-- Settles O7: item 6 by its two cases, with the decoder's outputs read as bit fields of the fetched byte. -/
theorem advanceIsDecidedByTheFetchedByte : Obligations.AdvanceIsDecidedByTheFetchedByte := by
  intro c s u i hr hi hu hf ir n
  have hstep : stepWith c s = advancePc ir u := stepWith_returned hr hi hu hf
  refine ⟨fun h4 => ?_, fun h4 hn => ?_, exec_pc hu⟩
  · rw [hstep, advancePc_setsPC u ((setsPC_eq_getLsbD ir).trans h4)]
  · have hsum : u.pc.toNat + advance ir = n := congrArg (u.pc.toNat + ·) (advance_eq_extractLsb ir)
    rw [hstep, advancePc_adds u ((setsPC_eq_getLsbD ir).trans h4), hsum, movePc_inside u _ hn, State.setPc]

/-! ## The dispatch lookup -/

theorem stepWith_lookup_some {c : Config} {s : State} {m : Mnemonic} (hr : s.run = .running) (hp : s.pc.toNat ≤ 253)
    (hm : lookupOpcode c (s.mem.read s.pc.toNat) = some m) :
    stepWith c s = completeStep (s.mem.read s.pc.toNat)
      (exec (buildInstr (s.mem.read (s.pc.toNat + 1)) (s.mem.read (s.pc.toNat + 2)) m) s) :=
  stepWith_nextInstr hr (by rw [nextInstr, if_pos hp, decodeFetched_eq, hm, Option.map_some])

theorem stepWith_lookup_none {c : Config} {s : State} (hr : s.run = .running) (hp : s.pc.toNat ≤ 253)
    (hm : lookupOpcode c (s.mem.read s.pc.toNat) = none) :
    stepWith c s = .next (s.setRun (.faulted (.unhandledInstruction (s.mem.read s.pc.toNat)))) := by
  rw [stepWith_running c hr, if_pos hp, decodeFetched_eq, hm, Option.map_none]

/-- Settles O9: with distinct keys the lookup finds every row of the Dispatch Table by its own key, and it misses exactly
the bytes that are no key. -/
theorem dispatchLooksUpTheWholeByte : Obligations.DispatchLooksUpTheWholeByte := by
  intro c s ⟨_, hdistinct, _⟩ hr hp
  exact ⟨fun _ hm => stepWith_lookup_some hr hp (lookup_of_mem hdistinct hm),
    fun hk => stepWith_lookup_none hr hp (lookupOpcode_none.2 hk)⟩

/-! ## Every shared operation answers a next state where its continuation does -/

theorem ite_answers {p : Prop} [Decidable p] {r r' : Result} (hr : ∃ t, r = .next t) (hr' : ∃ t, r' = .next t) :
    ∃ t, (if p then r else r') = .next t := by
  split
  · exact hr
  · exact hr'

theorem withRead_answers (addr : Nat) (s : State) {k : Byte → Result} (hk : ∀ v, ∃ t, k v = .next t) :
    ∃ t, withRead addr s k = .next t :=
  ite_answers ⟨_, raise_eq ..⟩ (hk _)

theorem withWrite_answers (addr : Nat) (v : Byte) (s : State) {k : State → Result} (hk : ∀ u, ∃ t, k u = .next t) :
    ∃ t, withWrite addr v s k = .next t :=
  ite_answers ⟨_, raise_eq ..⟩ (hk _)

theorem withReg_answers (v : Byte) (s : State) {k : Fin 8 → Result} (hk : ∀ a, ∃ t, k a = .next t) :
    ∃ t, withReg v s k = .next t := by
  obtain ⟨a, rfl⟩ | hv := regByte_or v
  · rw [withReg_regByte]; exact hk a
  · exact ⟨_, withReg_illegal s k hv⟩

theorem withRegs_answers (va vb : Byte) (s : State) {k : Fin 8 → Fin 8 → Result} (hk : ∀ a b, ∃ t, k a b = .next t) :
    ∃ t, withRegs va vb s k = .next t :=
  withReg_answers va s fun a => withReg_answers vb s (hk a)

theorem movePc_answers (n : Nat) (s : State) : ∃ t, movePc n s .next = .next t :=
  ite_answers ⟨_, raise_eq ..⟩ ⟨_, rfl⟩

theorem advancePc_answers (ir : Byte) (s : State) : ∃ t, advancePc ir s = .next t :=
  ite_answers ⟨s, rfl⟩ (movePc_answers _ s)

theorem completeStep_answers (ir : Byte) (u : State) : ∃ t, completeStep ir (.next u) = .next t := by
  by_cases hf : ∃ f, u.run = .faulted f
  · obtain ⟨f, hf⟩ := hf
    exact ⟨u, completeStep_raised ir hf⟩
  · rw [completeStep_returned ir (not_exists.1 hf)]; exact advancePc_answers ir u

/-! ## When a step is enabled -/

/-- Every handler answers a next state from every state: a fatal condition is one too (60_exceptions.md R110). -/
theorem exec_answers (i : Instr) (s : State) : ∃ t, exec i s = .next t := by
  cases i with
  | ldi ra | prn ra | jmp ra => exact withReg_answers ra s fun _ => ⟨_, rfl⟩
  | hlt => exact ⟨_, exec_hlt s⟩
  | mul ra rb | cmp ra rb | add ra rb => exact withRegs_answers ra rb s fun _ _ => ⟨_, rfl⟩
  | push ra =>
    exact withReg_answers ra s fun _ => ite_answers (withWrite_answers _ _ _ fun _ => ⟨_, rfl⟩) ⟨_, raise_eq ..⟩
  | pop ra => exact withReg_answers ra s fun _ => withRead_answers _ s fun _ => ⟨_, rfl⟩
  | jeq ra => exact withReg_answers ra s fun _ => ite_answers ⟨_, rfl⟩ (movePc_answers _ s)
  | jne ra => exact withReg_answers ra s fun _ => ite_answers (movePc_answers _ s) ⟨_, rfl⟩

theorem stepWith_answers (c : Config) {s : State} (hr : s.run = .running) : ∃ t, stepWith c s = .next t := by
  rw [stepWith_running c hr]
  split
  · split
    · next i _ =>
      obtain ⟨u, hu⟩ := exec_answers i s
      rw [hu]
      exact completeStep_answers _ u
    · exact ⟨_, rfl⟩
  · exact ⟨_, rfl⟩

/-- A terminal state reaches only itself (40_engine_cycle.md R61). -/
theorem reaches_of_ended {s t : State} (hs : Ended s) (h : Reaches s t) : t = s := by
  induction h with
  | refl => rfl
  | step _ hstep ih =>
    subst ih
    exact absurd (stepWith_cases hstep).1 hs

/-- Settles O10: a step that answers was taken while Running by `stepWith_cases`, and while Running every branch answers. -/
theorem stepEnabledExactlyWhileRunning : Obligations.StepEnabledExactlyWhileRunning :=
  ⟨fun c _ => ⟨fun ⟨_, h⟩ => (stepWith_cases h).1, stepWith_answers c⟩, fun _ _ => reaches_of_ended, fun _ => rfl⟩

end Sys2Proof.Machine
end

section
/-! SUPPORT. The load port, part by part of the state: 45_host_interface.md R94. -/

namespace Sys2Proof.Machine

@[simp] theorem loadImage_pc (image : List Byte) (s : State) : (loadImage image s).pc = s.pc := rfl
@[simp] theorem loadImage_fl (image : List Byte) (s : State) : (loadImage image s).fl = s.fl := rfl
@[simp] theorem loadImage_run (image : List Byte) (s : State) : (loadImage image s).run = s.run := rfl
@[simp] theorem loadImage_out (image : List Byte) (s : State) : (loadImage image s).out = s.out := rfl
@[simp] theorem loadImage_mem (image : List Byte) (s : State) :
    (loadImage image s).mem = s.mem.writeFrom 0 image := rfl

/-- Each image byte stands at its own index, where the address space has one. -/
theorem loadImage_read_inside {image : List Byte} {s : State} {k : Nat} (hm : s.mem.wf) (hk : k < image.length)
    (h255 : k ≤ 255) : (loadImage image s).mem.read k = image[k] := by
  rw [loadImage_mem, Memory.read_writeFrom image s.mem 0 k hm, dif_pos ⟨k.zero_le, hk, h255⟩]
  rfl

theorem loadImage_read_above {image : List Byte} {s : State} {addr : Nat} (hm : s.mem.wf)
    (ha : image.length ≤ addr) : (loadImage image s).mem.read addr = s.mem.read addr := by
  rw [loadImage_mem, Memory.read_writeFrom image s.mem 0 addr hm]
  exact dif_neg fun ⟨_, hlt, _⟩ => Nat.not_lt.2 ha hlt

/-- Register 4 takes the length as a byte, so the length itself where it fits one. -/
theorem loadImage_boundIndex_toNat {image : List Byte} (s : State) (hlen : image.length ≤ 255) :
    ((loadImage image s).reg boundIndex).toNat = image.length := by
  rw [loadImage, State.setReg_reg_self, BitVec.toNat_ofNat, Nat.mod_eq_of_lt (Nat.lt_succ_of_le hlen)]

theorem loadImage_reg_ne (image : List Byte) (s : State) {j : Fin 8} (hj : j ≠ boundIndex) :
    (loadImage image s).reg j = s.reg j := by
  rw [loadImage, State.setReg_reg_ne _ _ hj.symm, State.setMem_reg]

/-- Settles O50: load is `Memory.writeFrom` at address 0 and one register write, read back part by part; an index of an
image that fits is an address. -/
theorem loadWritesTheImageAndItsLength : Obligations.LoadWritesTheImageAndItsLength := by
  intro image s hm hlen
  exact ⟨fun k hk => loadImage_read_inside hm hk (by omega), fun _ => loadImage_read_above hm,
    loadImage_boundIndex_toNat s hlen, fun _ => loadImage_reg_ne image s, loadImage_pc .., loadImage_fl ..,
    loadImage_run .., loadImage_out ..⟩

end Sys2Proof.Machine
end

section
/-! SUPPORT. Which handler raises which fatal condition, and which a step can end in: 60_exceptions.md R103, R106, R110. -/

namespace Sys2Proof.Machine

/-! ## Where a fatal condition comes from -/

/-- A fatal condition raised by a handler is the handler's whole effect (60_exceptions.md R110), and it is one of three:
an illegal register operand, PUSH's overflow, or a `pc` that does not fit. -/
theorem exec_raised {i : Instr} {s t : State} {f : FatalCondition} (hr : s.run = .running) (h : exec i s = .next t)
    (hf : t.run = .faulted f) :
    t = s.setRun (.faulted f) ∧
      ((∃ v, f = .invalidRegisterIndex v) ∨
        (∃ a, i = .push (regByte a) ∧ pushFits s = false ∧ f = .stackOverflow (s.reg spIndex) (s.reg boundIndex)) ∨
        ∃ n, f = .addressOutOfRange n) := by
  have returned (u : State) (hu : u.run = s.run) : u.run ≠ .faulted f := by simp [hu, hr]
  cases exec_cases h with
  | illegal => cases hf; exact ⟨rfl, .inl ⟨_, rfl⟩⟩
  | overflow hp => cases hf; exact ⟨rfl, .inr (.inl ⟨_, rfl, hp, rfl⟩)⟩
  | jeqNotTaken _ hm | jneNotTaken _ hm =>
    obtain ⟨-, rfl⟩ | ⟨-, rfl⟩ := movePc_cases hm
    · exact absurd hf (returned _ rfl)
    · cases hf; exact ⟨rfl, .inr (.inr ⟨_, rfl⟩)⟩
  | hlt => cases hf
  | pop => exact absurd hf (returned _ (incrementSp_run _))
  | ldi | prn | mul | add | cmp | push | jmp | jeqTaken | jneTaken => exact absurd hf (returned _ rfl)

/-- A running step that has no instruction to run raises one of the engine's own two conditions (60_exceptions.md R102,
R104). -/
theorem stepWith_no_instruction {c : Config} {s : State} (hr : s.run = .running) (hi : nextInstr c s = none) :
    stepWith c s = .next (s.setRun (.faulted (.unhandledInstruction (s.mem.read s.pc.toNat)))) ∨
      stepWith c s = .next (s.setRun (.faulted (.addressOutOfRange 256))) := by
  rw [stepWith_running c hr]
  unfold nextInstr at hi
  split at hi
  · next hp => rw [if_pos hp, hi]; exact .inl rfl
  · next hp => rw [if_neg hp]; exact .inr rfl

/-- The fatal condition a step ends in is one of the engine's own two, or its handler raised it. -/
theorem stepWith_raised {c : Config} {s t : State} {f : FatalCondition} (h : stepWith c s = .next t)
    (hf : t.run = .faulted f) :
    (∃ op, f = .unhandledInstruction op) ∨ (∃ n, f = .addressOutOfRange n) ∨
      ∃ i u, nextInstr c s = some i ∧ exec i s = .next u ∧ u.run = .faulted f := by
  obtain ⟨hr, ⟨i, u, hi, -, hu, hc⟩ | ⟨hi, -⟩⟩ := stepWith_cases h
  · obtain ⟨-, -, -, -, hkept | ⟨hadvance, -⟩⟩ := completeStep_rest hc
    · exact .inr (.inr ⟨i, u, hi, hu, hkept.symm.trans hf⟩)
    · rw [hadvance] at hf; cases hf; exact .inr (.inl ⟨_, rfl⟩)
  · obtain hs | hs := stepWith_no_instruction hr hi <;> (rw [hs] at h; cases h; cases hf)
    · exact .inl ⟨_, rfl⟩
    · exact .inr (.inl ⟨_, rfl⟩)

/-! ## StackOverflow -/

/-- PUSH's test fails exactly when the integer comparison of 43_stack.md R86 is false. -/
theorem pushFits_eq_false_iff {s : State} :
    pushFits s = false ↔ ¬((s.reg spIndex).toNat : Int) - 1 ≥ ((s.reg boundIndex).toNat : Int) :=
  decide_eq_false_iff_not

/-- The dump port does not show the engine state. -/
@[simp] theorem dump_setRun (s : State) (r : EngineState) : dump (s.setRun r) = dump s := rfl

/-- Settles O40: PUSH's failed test is its overflow, and of a handler's three raises only that one is StackOverflow. -/
theorem stackOverflowFaultsPreciselyAndOnlyInPush : Obligations.StackOverflowFaultsPreciselyAndOnlyInPush := by
  refine ⟨fun a s hn => exec_push_overflow a s (pushFits_eq_false_iff.2 hn), fun i s t sp bound hr h hf => ?_⟩
  obtain ⟨rfl, ⟨_, hv⟩ | ⟨a, hi, hp, ho⟩ | ⟨_, hn⟩⟩ := exec_raised hr h hf
  · cases hv
  · cases ho
    exact ⟨⟨a, hi⟩, pushFits_eq_false_iff.1 hp, rfl, rfl, dump_setRun ..⟩
  · cases hn

/-! ## UnsupportedOperation -/

theorem alu_other (name : String) (a b : Fin 8) (s : State) (k : State → Result) :
    alu (.other name) a b s k = .next (s.setRun (.faulted (.unsupportedOperation (.other name)))) := rfl

/-- No handler passes the ALU a selector it does not know (42_alu.md R81). -/
theorem exec_not_unsupported {i : Instr} {s t : State} (hr : s.run = .running) (h : exec i s = .next t)
    (sel : AluSelector) : t.run ≠ .faulted (.unsupportedOperation sel) := by
  intro hf
  obtain ⟨-, ⟨_, he⟩ | ⟨_, -, -, he⟩ | ⟨_, he⟩⟩ := exec_raised hr h hf <;> cases he

/-- Settles O46: neither the engine's own conditions nor a handler's are UnsupportedOperation. -/
theorem unsupportedOperationIsUnreachable : Obligations.UnsupportedOperationIsUnreachable := by
  refine ⟨alu_other, fun c s t sel h hf => ?_⟩
  obtain ⟨_, he⟩ | ⟨_, he⟩ | ⟨i, u, -, hu, hfu⟩ := stepWith_raised h hf
  · cases he
  · cases he
  · exact exec_not_unsupported (stepWith_cases h).1 hu sel hfu

end Sys2Proof.Machine
end

section
/-! SUPPORT. The encoder and the decoder undo each other: 30_encoding.md sections 1 to 3. -/

namespace Sys2Proof

theorem decode_encode {c : Config} {i : Instr} (hd : (dispatchKeys c).Nodup) (hm : i.mnemonic ∈ mappedMnemonics c)
    (rest : List Byte) : decode c (encode c i ++ rest) = .ok (i, rest) := by
  simp only [encode, List.cons_append, decode, lookupOpcode_opcodeByte hd hm]
  exact takeOperands_operands i rest

/-- Settles O1: with distinct keys the opcode byte selects its own row, and the row takes back its operand bytes. -/
theorem decodeOfEncodeIsIdentity : Obligations.DecodeOfEncodeIsIdentity :=
  fun _ ⟨_, hdistinct, _⟩ _ hm rest => decode_encode hdistinct hm rest

/-- Settles O2: a lookup that hits gives the row of the opcode byte, and what the row takes are the operand bytes. -/
theorem decodedBytesAreTheEncoding : Obligations.DecodedBytesAreTheEncoding := by
  intro c bs rest i h
  cases bs with
  | nil => cases h
  | cons op bs =>
    cases hm : lookupOpcode c op with
    | none => rw [decode, hm] at h; cases h
    | some m =>
      rw [decode, hm] at h
      obtain ⟨rfl, rfl⟩ := takeOperands_ok h
      obtain ⟨rfl, hmapped⟩ := lookupOpcode_some hm
      exact ⟨rfl, hmapped⟩

/-- Settles O3: closed facts about the two assignments the spec names; each is computed. -/
theorem specWordsDecode : Obligations.SpecWordsDecode :=
  ⟨by decide, by decide, rfl, rfl, rfl, rfl, rfl, rfl, rfl, rfl, rfl, rfl, rfl, rfl⟩

end Sys2Proof
end

section
/-! SUPPORT. What an instruction and a step leave unchanged: one lemma for each part of the state, and from them the frames
of files 41 to 44, the rules of 20_memory.md section 3 and 43_stack.md R87, and the invariants. -/

namespace Sys2Proof.Machine

/-! ## Registers -/

/-- The instruction moves the stack pointer without naming it. -/
def usesStack : Instr → Bool
  | .push _ | .pop _ => true
  | .ldi _ _ | .prn _ | .hlt | .mul _ _ | .cmp _ _ | .jmp _ | .jeq _ | .jne _ | .add _ _ => false

theorem regIndex_ne {ra : Byte} {j : Fin 8} (h : regByte j ≠ ra) : (regIndex ra == some j) = false :=
  beq_eq_false_iff_ne.2 fun hj => h (regIndex_eq_some hj).symm

theorem ne_of_regIndex {a j : Fin 8} (h : (regIndex (regByte a) == some j) = false) : a ≠ j := by
  rintro rfl
  simp at h

theorem setReg_incrementSp_reg_ne {a j : Fin 8} (s : State) (v : Byte) (ha : a ≠ j) (hj : j ≠ spIndex) :
    (incrementSp (s.setReg a v)).reg j = s.reg j := by
  rw [incrementSp_reg_ne _ hj, State.setReg_reg_ne _ _ ha]

/-- A register is written only as the explicit destination or as PUSH's and POP's stack pointer (10_state.md R12). -/
theorem exec_reg {i : Instr} {s t : State} {j : Fin 8} (h : exec i s = .next t) (hd : explicitDest j i = false)
    (hsp : j = spIndex → usesStack i = false) : t.reg j = s.reg j := by
  cases exec_cases h with
  | ldi | mul | add => exact State.setReg_reg_ne _ _ (ne_of_regIndex hd)
  | push => exact State.setReg_reg_ne _ _ fun hj => Bool.noConfusion (hsp hj.symm)
  | pop => exact setReg_incrementSp_reg_ne _ _ (ne_of_regIndex hd) fun hj => Bool.noConfusion (hsp hj)
  | jeqNotTaken _ hm | jneNotTaken _ hm => exact (movePc_rest hm).1 j
  | illegal | prn | hlt | cmp | overflow | jmp | jeqTaken | jneTaken => rfl

/-! ## Memory -/

/-- A handler leaves the Memory, or it is a PUSH that fits and has written the cell at the decremented stack pointer. -/
theorem exec_mem {i : Instr} {s t : State} (h : exec i s = .next t) :
    t.mem = s.mem ∨ ∃ a v, i = .push (regByte a) ∧ pushFits s = true ∧ t.mem = s.mem.write (pushAddress s) v := by
  cases exec_cases h with
  | push hf => exact .inr ⟨_, _, rfl, hf, rfl⟩
  | pop => exact .inl (incrementSp_mem _)
  | jeqNotTaken _ hm | jneNotTaken _ hm => obtain ⟨-, -, -, hmem, -⟩ := movePc_rest hm; exact .inl hmem
  | illegal | ldi | prn | hlt | mul | add | cmp | overflow | jmp | jeqTaken | jneTaken => exact .inl rfl

theorem exec_mem_of_not_push {i : Instr} {s t : State} (h : exec i s = .next t) (hi : isPush i = false) :
    t.mem = s.mem := by
  obtain hm | ⟨a, v, rfl, -⟩ := exec_mem h
  · exact hm
  · cases hi

theorem pushAddress_lt (s : State) : pushAddress s < 256 := BitVec.isLt _

/-- The store of a PUSH that fits is never below the boundary (43_stack.md R87 (a)). -/
theorem boundary_le_pushAddress {s : State} (h : pushFits s = true) : (s.reg boundIndex).toNat ≤ pushAddress s := by
  have hlt := (pushFits_iff s).1 h
  rw [pushAddress_eq s hlt]
  omega

/-! ## The other parts -/

theorem exec_fl {i : Instr} {s t : State} (h : exec i s = .next t) (hi : ∀ ra rb, i ≠ .cmp ra rb) : t.fl = s.fl := by
  obtain hfl | ⟨⟨ra, rb, rfl⟩, -⟩ := exec_writes_flags h
  · exact hfl
  · exact absurd rfl (hi ra rb)

theorem exec_reservedFlags {i : Instr} {s t : State} (h : exec i s = .next t) :
    reservedFlags t.fl = reservedFlags s.fl := by
  obtain hfl | ⟨-, hfl⟩ := exec_writes_flags h
  · rw [hfl]
  · exact hfl

theorem exec_out {i : Instr} {s t : State} (h : exec i s = .next t) (hi : ∀ ra, i ≠ .prn ra) : t.out = s.out := by
  obtain ⟨a, b, rfl, rfl⟩ | ⟨a, rfl, rfl⟩ | hl := exec_flagsAndOut_cases h
  · rfl
  · exact absurd rfl (hi _)
  · exact hl.out

/-- HLT alone writes `run` otherwise than by raising. -/
theorem exec_run {i : Instr} {s t : State} (h : exec i s = .next t) :
    t.run = s.run ∨ (i = .hlt ∧ t.run = .halted) ∨ ∃ f, t.run = .faulted f := by
  cases exec_cases h with
  | illegal | overflow => exact .inr (.inr ⟨_, rfl⟩)
  | hlt => exact .inr (.inl ⟨rfl, rfl⟩)
  | pop => exact .inl (incrementSp_run _)
  | jeqNotTaken _ hm | jneNotTaken _ hm =>
    obtain ⟨-, -, -, -, hkept | ⟨-, hf, -⟩⟩ := movePc_rest hm
    · exact .inl hkept
    · exact .inr (.inr ⟨_, hf⟩)
  | ldi | prn | mul | add | cmp | push | jmp | jeqTaken | jneTaken => exact .inl rfl

theorem exec_run_of_ne_hlt {i : Instr} {s t : State} (h : exec i s = .next t) (hi : i ≠ .hlt) :
    t.run = s.run ∨ ∃ f, t.run = .faulted f :=
  (exec_run h).imp_right fun hr => hr.resolve_left fun ⟨hh, _⟩ => hi hh

/-! ## The frames of the instructions -/

/-- Settles O25: operand a is the explicit destination of the three, and every other part has another writer. -/
theorem registerWritersFrame : Obligations.RegisterWritersFrame := by
  intro ra rb i s t hi h
  have hd (j : Fin 8) (hj : regByte j ≠ ra) : explicitDest j i = false := by
    obtain rfl | rfl | rfl := hi <;> exact regIndex_ne hj
  obtain ⟨hstack, hpush, hpc⟩ : usesStack i = false ∧ isPush i = false ∧ writesPc i.mnemonic = false := by
    obtain rfl | rfl | rfl := hi <;> exact ⟨rfl, rfl, rfl⟩
  obtain ⟨hcmp, hprn, hhlt⟩ : (∀ a b, i ≠ .cmp a b) ∧ (∀ a, i ≠ .prn a) ∧ i ≠ .hlt := by
    obtain rfl | rfl | rfl := hi <;> simp
  exact ⟨fun j hj => exec_reg h (hd j hj) fun _ => hstack, exec_fl h hcmp, exec_pc h hpc, exec_out h hprn,
    fun addr => by rw [exec_mem_of_not_push h hpush], exec_run_of_ne_hlt h hhlt⟩

/-- Settles O26: the six have no explicit destination and do not store; CMP, PRN and HLT each write their one part. -/
theorem registerReadersFrame : Obligations.RegisterReadersFrame := by
  intro ra rb i s t hi h
  obtain ⟨hd, hstack, hpush⟩ : (∀ j, explicitDest j i = false) ∧ usesStack i = false ∧ isPush i = false := by
    obtain rfl | rfl | rfl | rfl | rfl | rfl := hi <;> exact ⟨fun _ => rfl, rfl, rfl⟩
  have hpc (hw : i = .prn ra ∨ i = .hlt ∨ i = .cmp ra rb) : writesPc i.mnemonic = false := by
    obtain rfl | rfl | rfl := hw <;> rfl
  have hcmp (hne : i ≠ .cmp ra rb) (a b : Byte) : i ≠ .cmp a b := by
    rintro rfl
    exact hne (by simpa using hi)
  have hprn (hne : i ≠ .prn ra) (a : Byte) : i ≠ .prn a := by
    rintro rfl
    exact hne (by simpa using hi)
  exact ⟨fun j => exec_reg h (hd j) fun _ => hstack, fun addr => by rw [exec_mem_of_not_push h hpush],
    exec_reservedFlags h, fun hne => exec_fl h (hcmp hne), fun hne => exec_out h (hprn hne),
    fun hw => exec_pc h (hpc hw), exec_run h⟩

/-- Settles O27: PUSH names no destination, and its one store is at the address it computes. -/
theorem pushFrame : Obligations.PushFrame := by
  intro ra s t h
  refine ⟨fun j hj => exec_reg h rfl fun he => absurd he hj, exec_fl h (by simp), exec_pc h rfl, exec_out h (by simp), ?_,
    exec_run_of_ne_hlt h (by simp)⟩
  rintro _ rfl addr haddr
  obtain hm | ⟨_, v, -, -, hm⟩ := exec_mem h
  · rw [hm]
  · rw [hm, Memory.read_write_ne _ _ haddr]

/-- Settles O28: POP names its destination and moves the stack pointer; it stores nothing. -/
theorem popFrame : Obligations.PopFrame :=
  fun ra s t h => ⟨fun j hj hne => exec_reg h (regIndex_ne hne) fun he => absurd he hj, exec_fl h (by simp),
    exec_pc h rfl, exec_out h (by simp), fun addr => by rw [exec_mem_of_not_push h rfl], exec_run_of_ne_hlt h (by simp)⟩

/-! ## The same for a step -/

/-- A step leaves the Memory, or it ran a PUSH that fits, which has written one cell. -/
theorem stepWith_mem {c : Config} {s t : State} (h : stepWith c s = .next t) :
    t.mem = s.mem ∨ ∃ a v, nextInstr c s = some (.push (regByte a)) ∧ pushFits s = true ∧
      t.mem = s.mem.write (pushAddress s) v := by
  obtain ⟨-, ⟨i, u, hi, -, hu, hc⟩ | ⟨-, f, -, rfl⟩⟩ := stepWith_cases h
  · obtain ⟨-, -, hmem, -⟩ := completeStep_rest hc
    rw [hmem, hi]
    exact (exec_mem hu).imp_right fun ⟨a, v, hp, hf, hm⟩ => ⟨a, v, congrArg some hp, hf, hm⟩
  · exact .inl rfl

theorem stepWith_reservedFlags {c : Config} {s t : State} (h : stepWith c s = .next t) :
    reservedFlags t.fl = reservedFlags s.fl := by
  obtain ⟨-, ⟨i, u, -, -, hu, hc⟩ | ⟨-, f, -, rfl⟩⟩ := stepWith_cases h
  · obtain ⟨-, hfl, -⟩ := completeStep_rest hc
    rw [hfl, exec_reservedFlags hu]
  · rfl

theorem stepWith_mem_below_boundary {c : Config} {s t : State} (h : stepWith c s = .next t) {addr : Nat}
    (haddr : addr < (s.reg boundIndex).toNat) : t.mem.read addr = s.mem.read addr := by
  obtain hm | ⟨a, v, -, hf, hm⟩ := stepWith_mem h
  · rw [hm]
  · have hle := boundary_le_pushAddress hf
    rw [hm, Memory.read_write_ne _ _ (by omega)]

/-- Settles O31: the one store is PUSH's, and a PUSH that fits stores at the boundary or above it. -/
theorem onlyPushStoresAndNeverBelowTheBoundary : Obligations.OnlyPushStoresAndNeverBelowTheBoundary := by
  intro c s t h
  refine ⟨?_, fun addr => stepWith_mem_below_boundary h⟩
  obtain hm | ⟨a, v, hi, -, hm⟩ := stepWith_mem h
  · exact .inl fun addr => by rw [hm]
  · exact .inr ⟨⟨_, hi⟩, fun addr haddr => by rw [hm, Memory.read_write_ne _ _ haddr]⟩

/-! ## The invariant -/

/-- Settles O32: the one store is inside the address space and so keeps the canonical form, and no handler writes a reserved
flag. -/
theorem invariantKeptByEveryStep : Obligations.InvariantKeptByEveryStep := by
  rintro c s t ⟨hwf, hfl⟩ h
  refine ⟨?_, (stepWith_reservedFlags h).trans hfl⟩
  obtain hm | ⟨a, v, -, -, hm⟩ := stepWith_mem h
  · rwa [hm]
  · rw [hm]; exact Memory.write_wf v hwf (pushAddress_lt s)

/-! ## The stack discipline -/

/-- A handler that does not name the stack pointer leaves it, or moves it down by a PUSH that fits, or up by a POP below the
stack head. -/
theorem exec_sp {i : Instr} {s t : State} (h : exec i s = .next t) (hd : explicitDest spIndex i = false) :
    t.reg spIndex = s.reg spIndex ∨
      (pushFits s = true ∧ (t.reg spIndex).toNat = (s.reg spIndex).toNat - 1) ∨
      ((s.reg spIndex).toNat < 0xF4 ∧ (t.reg spIndex).toNat = (s.reg spIndex).toNat + 1) := by
  cases exec_cases h with
  | push hf => exact .inr (.inl ⟨hf, pushAddress_eq s ((pushFits_iff s).1 hf)⟩)
  | @pop a =>
    have hsp : (s.setReg a (s.mem.read (s.reg spIndex).toNat)).reg spIndex = s.reg spIndex :=
      State.setReg_reg_ne _ _ (ne_of_regIndex hd)
    have hinc := incrementSp_sp (s.setReg a (s.mem.read (s.reg spIndex).toNat))
    rw [hsp] at hinc
    split at hinc
    · next hlt => exact .inr (.inr ⟨hlt, hinc⟩)
    · exact .inl (BitVec.eq_of_toNat_eq hinc)
  | illegal | overflow => exact .inl rfl
  | ldi | prn | hlt | mul | add | cmp | jmp | jeqTaken | jeqNotTaken | jneTaken | jneNotTaken =>
    exact .inl (exec_reg h hd fun _ => rfl)

/-- Both stack registers after a handler that names neither: the boundary where it was, the stack pointer still between it
and the stack head. -/
theorem exec_keeps_stackInv {i : Instr} {n : Nat} {s t : State} (hs : StackInv n s) (hk : keepsStackRegisters i)
    (h : exec i s = .next t) : StackInv n t := by
  obtain ⟨hbound, hle, hhead⟩ := hs
  obtain ⟨hkbound, hksp⟩ := hk
  have hb : t.reg boundIndex = s.reg boundIndex := exec_reg h hkbound fun he => by cases he
  refine ⟨by rw [hb, hbound], ?_⟩
  obtain hsp | ⟨hf, hsp⟩ | ⟨hlt, hsp⟩ := exec_sp h hksp
  · rw [hsp]; exact ⟨hle, hhead⟩
  · have hfits := (pushFits_iff s).1 hf
    omega
  · omega

/-- The discipline speaks of the registers alone. -/
theorem stackInv_of_reg_eq {n : Nat} {s t : State} (hreg : ∀ j, t.reg j = s.reg j) (hs : StackInv n s) : StackInv n t := by
  unfold StackInv
  rw [hreg, hreg]
  exact hs

/-- Settles O34: the handler keeps the discipline, the rest of the step writes no register, and the boundary that no store
goes below is `n`. -/
theorem stackDisciplineKeptByEveryStep : Obligations.StackDisciplineKeptByEveryStep := by
  intro c n s t hs hk h
  refine ⟨?_, fun addr haddr => stepWith_mem_below_boundary h (hs.1.symm ▸ haddr)⟩
  obtain ⟨-, ⟨i, u, hi, -, hu, hc⟩ | ⟨-, f, -, rfl⟩⟩ := stepWith_cases h
  · exact stackInv_of_reg_eq (completeStep_rest hc).1 (exec_keeps_stackInv hs (hk i hi) hu)
  · exact hs

end Sys2Proof.Machine
end

section
/-! SUPPORT. The ALU's arithmetic (42_alu.md R77) and the Memory's canonical form as a representation of the 256 cells. -/

namespace Sys2Proof.Machine

/-! ## The ALU -/

theorem multiplyBytes_toNat (x y : Byte) : (multiplyBytes x y).toNat = x.toNat * y.toNat % 256 := BitVec.toNat_ofNat ..

theorem addBytes_toNat (x y : Byte) : (addBytes x y).toNat = (x.toNat + y.toNat) % 256 := BitVec.toNat_ofNat ..

theorem multiplyBytes_eq_mul (x y : Byte) : multiplyBytes x y = x * y :=
  BitVec.eq_of_toNat_eq (by rw [multiplyBytes_toNat, BitVec.toNat_mul])

theorem addBytes_eq_add (x y : Byte) : addBytes x y = x + y :=
  BitVec.eq_of_toNat_eq (by rw [addBytes_toNat, BitVec.toNat_add])

/-- Settles O47: the two operations are the ring operations of bytes, and reading an integer modulo 256 respects both. -/
theorem aluKeepsTheLowEightBits : Obligations.AluKeepsTheLowEightBits := by
  intro x y
  refine ⟨multiplyBytes_toNat x y, addBytes_toNat x y, ?_, ?_⟩
  · rw [multiplyBytes_eq_mul, BitVec.ofInt_mul, BitVec.ofInt_toInt, BitVec.ofInt_toInt]
  · rw [addBytes_eq_add, BitVec.ofInt_add, BitVec.ofInt_toInt, BitVec.ofInt_toInt]

/-! ## The canonical form -/

/-- The 256 cells of two Memories hold the same bytes. -/
def Memory.SameCells (m n : Memory) : Prop := ∀ addr, addr < 256 → m.read addr = n.read addr

theorem Memory.SameCells.symm {m n : Memory} (h : m.SameCells n) : n.SameCells m := fun addr ha => (h addr ha).symm

/-- A listed cell holds something else than the reset value, so a Memory that lists only higher ones differs there. -/
theorem Memory.not_sameCells_of_below {a : Nat} {v : Byte} {m n : Memory} (hm : Memory.wf ((a, v) :: m))
    (hn : ∀ p ∈ n, a < p.1) : ¬Memory.SameCells ((a, v) :: m) n := by
  intro h
  obtain ⟨ha, hv⟩ := hm.2 (a, v) (by simp)
  have hread := h a ha
  rw [Memory.read_cell, if_pos rfl, Memory.read_below n a hn] at hread
  exact hv hread

/-- Of two canonical Memories with the same cells neither lists an address before the other's first. -/
theorem Memory.first_le_of_sameCells {a b : Nat} {v w : Byte} {m n : Memory} (hm : Memory.wf ((a, v) :: m))
    (hn : Memory.wf ((b, w) :: n)) (h : Memory.SameCells ((a, v) :: m) ((b, w) :: n)) : b ≤ a := by
  by_contra hab
  refine Memory.not_sameCells_of_below hm (fun p hp => ?_) h
  obtain rfl | hp := List.mem_cons.1 hp
  · exact Nat.not_le.1 hab
  · exact lt_trans (Nat.not_le.1 hab) ((Memory.wf_tail hn).2 p hp)

theorem Memory.sameCells_tail {a : Nat} {v w : Byte} {m n : Memory} (hm : ∀ p ∈ m, a < p.1) (hn : ∀ p ∈ n, a < p.1)
    (h : Memory.SameCells ((a, v) :: m) ((a, w) :: n)) : m.SameCells n := by
  intro addr haddr
  by_cases ha : addr = a
  · rw [ha, Memory.read_below m a hm, Memory.read_below n a hn]
  · simpa [Memory.read_cell, ha] using h addr haddr

/-- Settles O48, by induction on the first list: canonical Memories with the same cells begin with the same cell, and so on
in their tails. -/
theorem canonicalMemoryIsDeterminedByItsCells : Obligations.CanonicalMemoryIsDeterminedByItsCells := by
  intro m
  induction m with
  | nil =>
    intro n _ hn h
    cases n with
    | nil => rfl
    | cons q n => exact absurd (Memory.SameCells.symm h) (Memory.not_sameCells_of_below hn (by simp))
  | cons p m ih =>
    intro n hm hn h
    cases n with
    | nil => exact absurd h (Memory.not_sameCells_of_below hm (by simp))
    | cons q n =>
      obtain ⟨a, v⟩ := p
      obtain ⟨b, w⟩ := q
      obtain rfl : a = b :=
        Nat.le_antisymm (Memory.first_le_of_sameCells hn hm (Memory.SameCells.symm h)) (Memory.first_le_of_sameCells hm hn h)
      obtain ⟨htm, hbm⟩ := Memory.wf_tail hm
      obtain ⟨htn, hbn⟩ := Memory.wf_tail hn
      have hvw := h a (hm.2 (a, v) (by simp)).1
      rw [Memory.read_cell, Memory.read_cell, if_pos rfl, if_pos rfl] at hvw
      rw [hvw, ih n htm htn (Memory.sameCells_tail hbm hbn h)]

end Sys2Proof.Machine
end

section
/-! SUPPORT. The ports around a run: reset, launch and status (10_state.md R25, 45_host_interface.md R97, R100), and that a run
has one end. -/

namespace Sys2Proof.Machine

/-! ## Reset -/

/-- Settles O33: at reset no cell is listed and the flags are 0. -/
theorem invariantHoldsAtReset : Obligations.InvariantHoldsAtReset := ⟨Memory.wf_nil, rfl⟩

/-- Settles O49: the fields of `State.resetWith`, its registers by `State.resetWith_reg`. -/
theorem resetLeavesTheSpecsValues : Obligations.ResetLeavesTheSpecsValues :=
  fun _ gpr => ⟨rfl, Memory.read_nil, State.resetWith_reg gpr, rfl, rfl, rfl, rfl⟩

/-! ## Launch -/

theorem launch_fits {image : List Byte} (h : image.length ≤ 255) :
    launch (some image) = .ok (loadImage image State.reset) := if_pos h

theorem launch_too_long {image : List Byte} (h : 255 < image.length) :
    launch (some image) = .error (.imageTooLong image.length) := if_neg (Nat.not_le.2 h)

/-- A load keeps the invariant: it writes memory from address 0 upwards and no flag. -/
theorem loadImage_inv (image : List Byte) {s : State} (h : Inv s) : Inv (loadImage image s) :=
  ⟨Memory.writeFrom_wf image s.mem 0 h.1, h.2⟩

theorem launch_spIndex (image : List Byte) : (loadImage image State.reset).reg spIndex = 0xF4 :=
  loadImage_reg_ne image State.reset (by decide)

theorem launch_reg {image : List Byte} {j : Fin 8} (hb : j ≠ boundIndex) (hsp : j ≠ spIndex) :
    (loadImage image State.reset).reg j = 0 := by
  rw [loadImage_reg_ne image State.reset hb, State.reset, State.resetWith_reg, if_neg hsp]

/-- An image that ends at the stack head or below it launches with an empty stack above it. -/
theorem launch_stackInv {image : List Byte} (h : image.length ≤ 0xF4) :
    StackInv image.length (loadImage image State.reset) := by
  unfold StackInv
  rw [launch_spIndex, loadImage_boundIndex_toNat State.reset (by omega)]
  exact ⟨rfl, h, le_rfl⟩

/-- Settles O51: launch is the load port at the reset state, whose Memory and flags are empty. -/
theorem launchStateOfAnImage : Obligations.LaunchStateOfAnImage := by
  refine ⟨fun image hlen => ⟨_, launch_fits hlen, ?_⟩, fun image => launch_too_long, rfl⟩
  exact ⟨fun k hk => loadImage_read_inside Memory.wf_nil hk (by omega),
    fun addr haddr => loadImage_read_above Memory.wf_nil haddr, loadImage_boundIndex_toNat State.reset hlen,
    launch_spIndex image, fun j => launch_reg, rfl, rfl, rfl, rfl, loadImage_inv image invariantHoldsAtReset,
    launch_stackInv⟩

/-! ## Status -/

theorem faultCode_ne_zero (f : FatalCondition) : faultCode f ≠ 0 := by cases f <;> simp [faultCode]

theorem faultCode_ne_loadFailure (f : FatalCondition) : faultCode f ≠ 2 := by cases f <;> simp [faultCode]

theorem statusCode_eq_none (r : EngineState) : statusCode r = none ↔ r = .running := by
  cases r <;> simp [statusCode]

theorem statusCode_eq_zero (r : EngineState) : statusCode r = some 0 ↔ r = .halted := by
  cases r <;> simp [statusCode, faultCode_ne_zero]

theorem statusCode_ne_loadFailure (r : EngineState) : statusCode r ≠ loadErrorCode .loadFailure := by
  cases r <;> simp [statusCode, loadErrorCode, faultCode_ne_loadFailure]

/-- Settles O52: the codes by the cases of the engine state and of the fatal condition. -/
theorem statusCodesTellTheEndsApart : Obligations.StatusCodesTellTheEndsApart := by
  refine ⟨statusCode_eq_none, statusCode_eq_zero, statusCode_ne_loadFailure, ?_, ?_, ?_, ?_, ?_⟩
  · intro op g; cases g <;> simp [faultCode]
  · intro sp b g; cases g <;> simp [faultCode]
  · intro n g; cases g <;> simp [faultCode]
  · intro v g; cases g <;> simp [faultCode]
  · intro l g; cases g <;> simp [faultCode]

/-! ## The end of a run -/

/-- One step of the machine, as a relation. -/
def StepsTo (s t : State) : Prop := Machine.step s = .next t

theorem stepsTo_rightUnique : Relator.RightUnique StepsTo := fun _ _ _ ht hu =>
  Host.Outcome.next.inj (ht.symm.trans hu)

theorem reflTransGen_of_reaches {s t : State} (h : Reaches s t) : Relation.ReflTransGen StepsTo s t := by
  induction h with
  | refl => exact .refl
  | step _ hstep ih => exact ih.tail hstep

theorem reaches_of_reflTransGen {s t : State} (h : Relation.ReflTransGen StepsTo s t) : Reaches s t := by
  induction h with
  | refl => exact .refl
  | tail _ hstep ih => exact ih.step hstep

/-- Two states that one run passes through follow one another, since a step has one outcome. -/
theorem reaches_total {s t u : State} (ht : Reaches s t) (hu : Reaches s u) : Reaches t u ∨ Reaches u t :=
  (Relation.ReflTransGen.total_of_right_unique stepsTo_rightUnique (reflTransGen_of_reaches ht)
    (reflTransGen_of_reaches hu)).imp reaches_of_reflTransGen reaches_of_reflTransGen

/-- Settles O35: of two ends of a run one reaches the other, and a terminal state reaches only itself. -/
theorem runEndsInAtMostOneState : Obligations.RunEndsInAtMostOneState := by
  rintro s t u ⟨hst, ht⟩ ⟨hsu, hu⟩
  obtain htu | hut := reaches_total hst hsu
  · exact (reaches_of_ended ht htu).symm
  · exact reaches_of_ended hu hut

end Sys2Proof.Machine
end

section
/-! SUPPORT. What each instruction does when its register operands are legal (files 41 to 44), and what it does when one is
not (60_exceptions.md R105). -/

namespace Sys2Proof.Machine

/-! ## LDI, PRN and HLT -/

/-- Settles O13: `exec_ldi` field by field. -/
theorem ldiCompletes : Obligations.LdiCompletes :=
  fun a imm s => ⟨_, exec_ldi a s imm, State.setReg_reg_self .., fun _ hj => State.setReg_reg_ne s imm hj.symm,
    rfl, rfl, rfl, rfl, rfl⟩

/-- Settles O14: `exec_prn` field by field. -/
theorem prnCompletes : Obligations.PrnCompletes :=
  fun a s => ⟨_, exec_prn a s, rfl, fun _ => rfl, rfl, rfl, rfl, rfl⟩

/-- Settles O15: `exec_hlt` field by field. -/
theorem hltCompletes : Obligations.HltCompletes :=
  fun s => ⟨_, exec_hlt s, rfl, rfl, fun _ => rfl, rfl, rfl, rfl⟩

/-! ## MUL, ADD and CMP -/

/-- Settles O16: the register holds the product of the old values, as `multiplyBytes` reads both before the write. -/
theorem mulCompletes : Obligations.MulCompletes := by
  intro a b s
  refine ⟨_, exec_mul a b s, ?_, fun _ hj => State.setReg_reg_ne s _ hj.symm, rfl, rfl, rfl, rfl, rfl⟩
  rw [State.setReg_reg_self, multiplyBytes_toNat]

/-- Settles O17: the register holds the sum of the old values, as `addBytes` reads both before the write. -/
theorem addCompletes : Obligations.AddCompletes := by
  intro a b s
  refine ⟨_, exec_add a b s, ?_, fun _ hj => State.setReg_reg_ne s _ hj.symm, rfl, rfl, rfl, rfl, rfl⟩
  rw [State.setReg_reg_self, addBytes_toNat]

/-- Settles O18: the flags are written by `setEqualFlag`, which keeps the reserved bits. -/
theorem cmpCompletes : Obligations.CmpCompletes := by
  intro a b s
  refine ⟨_, exec_cmp a b s, ?_, ?_, fun _ => rfl, rfl, rfl, rfl, rfl⟩
  · rw [State.setFl_fl, equalFlag_setEqualFlag, beq_iff_eq]
  · rw [State.setFl_fl, reservedFlags_setEqualFlag]

/-! ## PUSH and POP -/

theorem decrementSp_reg (s : State) (a : Fin 8) :
    (decrementSp s).reg a = if a = spIndex then (decrementSp s).reg spIndex else s.reg a := by
  split
  · next h => rw [h]
  · next h => exact State.setReg_reg_ne s _ (Ne.symm h)

/-- Settles O19: the store is at the decremented stack pointer, which is `SP - 1` above the boundary, and reads the source
after the decrement. -/
theorem pushCompletes : Obligations.PushCompletes := by
  intro a s hwf hlt
  have haddr : pushAddress s = (s.reg spIndex).toNat - 1 := pushAddress_eq s hlt
  refine ⟨_, exec_push_fits a s ((pushFits_iff s).2 hlt), haddr, fun j hj => State.setReg_reg_ne s _ hj.symm, ?_, ?_,
    rfl, rfl, rfl, rfl⟩
  · rw [← haddr, State.setMem_mem, Memory.read_write_self _ _ hwf, decrementSp_reg, State.setMem_reg]
  · intro addr hne
    rw [State.setMem_mem, Memory.read_write_ne _ _ (haddr ▸ hne)]

/-- Settles O20: the destination is written before the stack pointer is tested, so POP R7 tests the loaded byte. -/
theorem popCompletes : Obligations.PopCompletes := by
  intro a s
  refine ⟨_, exec_pop a s, fun ha => ?_, ?_, fun j hja hj => ?_, incrementSp_pc _, incrementSp_fl _, incrementSp_run _,
    incrementSp_mem _, incrementSp_out _⟩
  · rw [incrementSp_reg_ne _ ha, State.setReg_reg_self]
  · intro sp
    have hsp : (s.setReg a (s.mem.read (s.reg spIndex).toNat)).reg spIndex = sp := State.setReg_reg ..
    rw [incrementSp_sp, hsp]
  · rw [incrementSp_reg_ne _ hj, State.setReg_reg_ne _ _ hja.symm]

/-- Settles O38: of the three cells the fetch reads, the first is the one written and the other two are above it. -/
theorem pushedByteIsFetched : Obligations.PushedByteIsFetched := by
  intro a s t k hwf ha hlt h254 h
  obtain ⟨t', ht', hsp, -, hstored, hkept, -⟩ := pushCompletes a s hwf hlt
  obtain rfl : t = t' := Host.Outcome.next.inj (h.symm.trans ht')
  rw [if_neg ha] at hstored
  have h1 : (s.reg spIndex).toNat - 1 + 1 = (s.reg spIndex).toNat := by omega
  have h2 : (s.reg spIndex).toNat - 1 + 2 = (s.reg spIndex).toNat + 1 := by omega
  change fetch (t.setPc (t.reg spIndex)) k = _
  rw [fetch_eq, State.setPc_pc, State.setPc_mem, hsp, if_pos (by omega), hstored, h1, h2, hkept _ (by omega),
    hkept _ (by omega)]

/-! ## JMP, JEQ and JNE -/

/-- Settles O21: `exec_jmp` field by field. -/
theorem jmpCompletes : Obligations.JmpCompletes :=
  fun a s => ⟨_, exec_jmp a s, rfl, fun _ => rfl, rfl, rfl, rfl, rfl⟩

theorem toNat_ofNat_of_le {n : Nat} (h : n ≤ 255) : (BitVec.ofNat 8 n).toNat = n := by
  rw [BitVec.toNat_ofNat, Nat.mod_eq_of_lt (Nat.lt_succ_of_le h)]

/-- Settles O22: the two branches of `exec_jeq`; two further fits `pc` at 253 and below. -/
theorem jeqCompletes : Obligations.JeqCompletes := by
  intro a s hp
  rw [exec_jeq, movePc_inside s _ (by omega : s.pc.toNat + 2 ≤ 255)]
  split
  · exact ⟨_, rfl, rfl, fun _ => rfl, rfl, rfl, rfl, rfl⟩
  · exact ⟨_, rfl, toNat_ofNat_of_le (by omega), fun _ => rfl, rfl, rfl, rfl, rfl⟩

/-- Settles O23: the two branches of `exec_jne`, opposite to those of `exec_jeq`. -/
theorem jneCompletes : Obligations.JneCompletes := by
  intro a s hp
  rw [exec_jne, movePc_inside s _ (by omega : s.pc.toNat + 2 ≤ 255)]
  split
  · exact ⟨_, rfl, toNat_ofNat_of_le (by omega), fun _ => rfl, rfl, rfl, rfl, rfl⟩
  · exact ⟨_, rfl, rfl, fun _ => rfl, rfl, rfl, rfl, rfl⟩

/-! ## An illegal register operand -/

/-- Settles O39: the first illegal operand is the handler's whole effect. -/
theorem illegalRegisterOperandFaultsFirst : Obligations.IllegalRegisterOperandFaultsFirst :=
  fun _ _ s h => exec_illegal_operand h s

end Sys2Proof.Machine
end

section
/-! SUPPORT. The step and its advance (40_engine_cycle.md R62 to R67): the instruction it runs, what the fetched byte adds to
`pc`, and where that does not fit. -/

namespace Sys2Proof.Machine

/-! ## Which instruction a step runs -/

theorem nextInstr_of_decode {c : Config} {s : State} {i : Instr} {rest : List Byte} (hp : s.pc.toNat ≤ 253)
    (hd : decode c [s.mem.read s.pc.toNat, s.mem.read (s.pc.toNat + 1), s.mem.read (s.pc.toNat + 2)] = .ok (i, rest)) :
    nextInstr c s = some i := by
  rw [nextInstr, if_pos hp, decodeFetched, hd]

theorem faultOf_eq_some {s : State} {f : FatalCondition} : faultOf s = some f ↔ s.run = .faulted f := by
  unfold faultOf
  split
  · next g hg => simp [hg]
  · next h => simp [h]
  · next h => simp [h]

theorem faultOf_running {s : State} (h : s.run = .running) : faultOf s = none := by rw [faultOf, h]

/-- Settles O6: a raise has ended the step, and a handler that returned is followed by the advance. -/
theorem stepRunsTheDecodedInstruction : Obligations.StepRunsTheDecodedInstruction := by
  intro c s i rest hr hp hd
  have hi : nextInstr c s = some i := nextInstr_of_decode hp hd
  have hstep := stepWith_nextInstr hr hi
  refine ⟨hstep, fun u hu hf => ?_, fun u hu hf => stepWith_returned hr hi hu hf⟩
  obtain ⟨f, hf⟩ := Option.ne_none_iff_exists'.1 hf
  rw [hstep, hu, completeStep_raised _ (faultOf_eq_some.1 hf)]

theorem stepWith_top (c : Config) {s : State} (hr : s.run = .running) (hp : 254 ≤ s.pc.toNat) :
    stepWith c s = .next (s.setRun (.faulted (.addressOutOfRange 256))) := by
  rw [stepWith_running c hr, if_neg (by omega)]

/-- Settles O11: above 253 no step passes the fetch. -/
theorem prefetchFaultsAtTheTopOfMemory : Obligations.PrefetchFaultsAtTheTopOfMemory := fun c _ => stepWith_top c

theorem dispatchKeys_defaultConfig :
    dispatchKeys defaultConfig = [0x82, 0x47, 0x01, 0xA2, 0x45, 0x46, 0xA7, 0x54, 0x55, 0x56] := rfl

theorem dispatchKeys_tableConfig : dispatchKeys tableConfig = dispatchKeys defaultConfig ++ [0xA0] := rfl

/-- Settles O12: the ten bytes are the default keys, and with ADD present A0 is one more. -/
theorem unmappedBytesAreUnhandled : Obligations.UnmappedBytesAreUnhandled := by
  intro s hr hp
  refine ⟨fun hop => ?_, fun hop => ?_⟩
  · have hkey : s.mem.read s.pc.toNat ∉ dispatchKeys defaultConfig := by
      rw [dispatchKeys_defaultConfig]
      simp only [List.mem_cons, List.not_mem_nil, or_false] at hop ⊢
      tauto
    have hstep := stepWith_lookup_none hr hp (lookupOpcode_none.2 hkey)
    refine ⟨hstep, fun hA0 => ?_⟩
    have hkey' : s.mem.read s.pc.toNat ∉ dispatchKeys tableConfig := by
      rw [dispatchKeys_tableConfig, List.mem_append, List.mem_singleton, not_or]
      exact ⟨hkey, hA0⟩
    exact (stepWith_lookup_none hr hp (lookupOpcode_none.2 hkey')).trans hstep.symm
  · have hadd : lookupOpcode tableConfig (s.mem.read s.pc.toNat) = some .add := by rw [hop]; rfl
    rw [stepWith_lookup_some hr hp hadd, hop, buildInstr]

/-! ## The advance the fetched byte decides -/

/-- Where no fault is raised and the handler leaves `pc`, the byte alone says where `pc` comes to. -/
theorem stepWith_pc_of_byte {c : Config} {s t : State} {i : Instr} (hi : nextInstr c s = some i)
    (hw : writesPc i.mnemonic = false) (h : stepWith c s = .next t) (hf : faultOf t = none) :
    t.pc = if setsPC (s.mem.read s.pc.toNat) = true then s.pc
      else BitVec.ofNat 8 (s.pc.toNat + advance (s.mem.read s.pc.toNat)) := by
  rw [faultOf_eq_none] at hf
  obtain ⟨-, ⟨k, u, hk, -, hu, hc⟩ | ⟨hk, -⟩⟩ := stepWith_cases h
  · obtain rfl := Option.some.inj (hi.symm.trans hk)
    have hpc : u.pc = s.pc := exec_pc hu hw
    obtain ⟨_, he, ⟨f, hraised, rfl⟩ | ⟨-, ⟨hs, rfl⟩ | ⟨hs, -, rfl⟩ | ⟨-, -, rfl⟩⟩⟩ := completeStep_cases hc <;> cases he
    · exact absurd hraised (hf f)
    · rw [if_pos hs, hpc]
    · rw [hs, if_neg Bool.false_ne_true, State.setPc_pc, hpc]
    · exact absurd rfl (hf _)
  · rw [hi] at hk; cases hk

/-- Settles O8: both values of `pc` are the one the byte gives, in which no assignment occurs. -/
theorem advanceDoesNotDependOnTheDispatchTable : Obligations.AdvanceDoesNotDependOnTheDispatchTable :=
  fun _ _ _ _ _ _ _ hi hj hwi hwj ht hu hft hfu =>
    (stepWith_pc_of_byte hi hwi ht hft).trans (stepWith_pc_of_byte hj hwj hu hfu).symm

/-- Settles O41: item 6 by its case that adds, with a sum above 255. -/
theorem advanceThatDoesNotFitFaults : Obligations.AdvanceThatDoesNotFitFaults := by
  intro c s u i hr hi hu hf ir n h4 hn
  have hsum : u.pc.toNat + advance ir = n := congrArg (u.pc.toNat + ·) (advance_eq_extractLsb ir)
  rw [stepWith_returned hr hi hu hf, advancePc_adds u ((setsPC_eq_getLsbD ir).trans h4), hsum, movePc_outside u _ hn,
    State.setRun]

/-! ## The advance at a valid assignment -/

/-- At a valid assignment the advance of a mapped byte is its instruction's own (30_encoding.md R51). -/
theorem advancePc_opcodeByte {c : Config} {m : Mnemonic} (hv : ValidAssignment c) (hm : m ∈ mappedMnemonics c) (s : State) :
    advancePc (opcodeByte c m) s =
      if writesPc m = true then .next s else movePc (s.pc.toNat + (operandCount m + 1)) s .next := by
  obtain ⟨hadvance, hsets⟩ := hv.1 m hm
  rw [advancePc, hsets, hadvance]

theorem stepWith_returned_valid {c : Config} {s u : State} {i : Instr} (hv : ValidAssignment c) (hr : s.run = .running)
    (hi : nextInstr c s = some i) (hu : exec i s = .next u) (hf : faultOf u = none) :
    stepWith c s = if writesPc i.mnemonic = true then .next u
      else movePc (u.pc.toNat + (operandCount i.mnemonic + 1)) u .next := by
  obtain ⟨-, hop, hm⟩ := nextInstr_opcode hi
  rw [stepWith_returned hr hi hu hf, hop, advancePc_opcodeByte hv hm]

/-- Settles O5: the byte's shape is its instruction's, and a sum that ends at 255 or below fits `pc`. -/
theorem advanceAgreesAtEveryValidAssignment : Obligations.AdvanceAgreesAtEveryValidAssignment := by
  refine fun c hv => ⟨fun m hm s => advancePc_opcodeByte hv hm s, fun s u i hr hi hu hf hfits => ?_⟩
  rw [stepWith_returned_valid hv hr hi hu hf]
  cases hw : writesPc i.mnemonic with
  | true => exact ⟨u, rfl, fun _ => rfl, rfl, rfl, rfl, rfl, rfl⟩
  | false =>
    rw [if_neg Bool.false_ne_true, exec_pc hu hw, movePc_inside u _ hfits]
    exact ⟨_, rfl, fun _ => rfl, rfl, rfl, rfl, rfl, toNat_ofNat_of_le hfits⟩

/-- Where no fault is recorded `pc` is past the instruction, unless the handler writes it. -/
theorem stepWith_pc_past {c : Config} {s t : State} {i : Instr} (hv : ValidAssignment c) (hi : nextInstr c s = some i)
    (h : stepWith c s = .next t) (hf : faultOf t = none) (hw : writesPc i.mnemonic = false) :
    t.pc.toNat = s.pc.toNat + (i.operands.length + 1) := by
  rw [faultOf_eq_none] at hf
  obtain ⟨-, -, u, -, ⟨f, hraised, rfl⟩ | ⟨-, ⟨hw', -⟩ | ⟨-, -, hfits, rfl⟩ | ⟨-, -, -, rfl⟩⟩⟩ := stepWith_valid_cases hv hi h
  · exact absurd hraised (hf f)
  · rw [hw] at hw'; cases hw'
  · exact toNat_ofNat_of_le hfits
  · exact absurd rfl (hf _)

/-- Nothing follows a handler that writes `pc`. -/
theorem stepWith_jump {c : Config} {s t : State} {i : Instr} (hv : ValidAssignment c) (hi : nextInstr c s = some i)
    (h : stepWith c s = .next t) (hw : writesPc i.mnemonic = true) : exec i s = .next t := by
  obtain ⟨-, -, u, hu, ⟨-, -, rfl⟩ | ⟨-, ⟨-, rfl⟩ | ⟨hw', -⟩ | ⟨hw', -⟩⟩⟩ := stepWith_valid_cases hv hi h
  · exact hu
  · exact hu
  · rw [hw] at hw'; cases hw'
  · rw [hw] at hw'; cases hw'

/-- A handler that records no fault has found its first register operand legal. -/
theorem legal_of_returned {i : Instr} {s t : State} {ra : Byte} (h : exec i s = .next t) (hf : faultOf t = none)
    (hra : (registerOperands i).head? = some ra) : ∃ a, ra = regByte a := by
  refine (regByte_or ra).resolve_right fun hv => ?_
  obtain ⟨l, hl⟩ := List.head?_eq_some_iff.1 hra
  rw [exec_illegal_operand (v := ra) (by simp [hl, hv]) s] at h
  cases h
  cases hf

/-- Settles O24: past the instruction where the handler leaves `pc`, and where it writes it what `exec` says of the three
jumps. -/
theorem pcAfterEachInstruction : Obligations.PcAfterEachInstruction := by
  intro c i s t hv hi h hf
  obtain ⟨hp, -⟩ := nextInstr_opcode hi
  cases i with
  | ldi | mul | cmp | add | prn | push | pop | hlt => exact stepWith_pc_past hv hi h hf rfl
  | jmp ra =>
    have hu := stepWith_jump hv hi h rfl
    obtain ⟨a, rfl⟩ := legal_of_returned hu hf rfl
    obtain ⟨t', ht', hpc, -⟩ := jmpCompletes a s
    obtain rfl := Host.Outcome.next.inj (hu.symm.trans ht')
    exact ⟨a, rfl, hpc⟩
  | jeq ra =>
    have hu := stepWith_jump hv hi h rfl
    obtain ⟨a, rfl⟩ := legal_of_returned hu hf rfl
    obtain ⟨t', ht', hpc, -⟩ := jeqCompletes a s hp
    obtain rfl := Host.Outcome.next.inj (hu.symm.trans ht')
    exact ⟨a, rfl, hpc⟩
  | jne ra =>
    have hu := stepWith_jump hv hi h rfl
    obtain ⟨a, rfl⟩ := legal_of_returned hu hf rfl
    obtain ⟨t', ht', hpc, -⟩ := jneCompletes a s hp
    obtain rfl := Host.Outcome.next.inj (hu.symm.trans ht')
    exact ⟨a, rfl, hpc⟩

theorem operandCount_of_writesPc {m : Mnemonic} (h : writesPc m = true) : operandCount m = 1 := by
  cases m with
  | jmp | jeq | jne => rfl
  | ldi | prn | hlt | mul | push | pop | cmp | add => cases h

/-- The one fault after a handler's effects: three bytes from 253 end at 256. -/
theorem stepWith_three_bytes_at_253 {c : Config} {s u : State} {i : Instr} (hv : ValidAssignment c) (hr : s.run = .running)
    (hp : s.pc.toNat = 253) (hi : nextInstr c s = some i) (h2 : operandCount i.mnemonic = 2) (hu : exec i s = .next u)
    (hrun : u.run = s.run) :
    stepWith c s = .next (u.setRun (.faulted (.addressOutOfRange 256))) ∧ u.pc = s.pc := by
  have hw : writesPc i.mnemonic = false := by
    rw [Bool.eq_false_iff]
    intro hw
    rw [operandCount_of_writesPc hw] at h2
    cases h2
  have hpc : u.pc = s.pc := exec_pc hu hw
  have hf : faultOf u = none := faultOf_running (hrun.trans hr)
  rw [stepWith_returned_valid hv hr hi hu hf, hw, if_neg Bool.false_ne_true, h2, hpc, hp, movePc_outside u _ (by decide)]
  exact ⟨rfl, rfl⟩

/-- Settles O42: each of the four completes, and its advance from 253 is the step's fault. -/
theorem advanceFaultKeepsTheEffects : Obligations.AdvanceFaultKeepsTheEffects := by
  intro c a b imm s hv hr hp faults
  refine ⟨fun hi => ?_, fun hi => ?_, fun hi => ?_, fun hi => ?_⟩
  · obtain ⟨u, hu, hwrite, -, -, -, hrun, -⟩ := ldiCompletes a imm s
    obtain ⟨hstep, hpc⟩ := stepWith_three_bytes_at_253 hv hr hp hi rfl hu hrun
    exact ⟨_, ⟨hstep, rfl, hpc⟩, hwrite⟩
  · obtain ⟨u, hu, hwrite, -, -, -, hrun, -⟩ := mulCompletes a b s
    obtain ⟨hstep, hpc⟩ := stepWith_three_bytes_at_253 hv hr hp hi rfl hu hrun
    exact ⟨_, ⟨hstep, rfl, hpc⟩, hwrite⟩
  · obtain ⟨u, hu, hwrite, -, -, -, hrun, -⟩ := addCompletes a b s
    obtain ⟨hstep, hpc⟩ := stepWith_three_bytes_at_253 hv hr hp hi rfl hu hrun
    exact ⟨_, ⟨hstep, rfl, hpc⟩, hwrite⟩
  · obtain ⟨u, hu, hwrite, -, -, -, hrun, -⟩ := cmpCompletes a b s
    obtain ⟨hstep, hpc⟩ := stepWith_three_bytes_at_253 hv hr hp hi rfl hu hrun
    exact ⟨_, ⟨hstep, rfl, hpc⟩, hwrite⟩

end Sys2Proof.Machine
end

section
/-! SUPPORT. The priority list of faults (60_exceptions.md R109), that it is what a step raises, and that a fault is precise
(R110). -/

namespace Sys2Proof.Machine

/-! ## The list, item by item -/

/-- Items 4 to 6 of the list, those a handler raises where the engine runs it: a bad register operand, then PUSH's overflow. -/
def handlerFault (i : Instr) (s : State) : Option FatalCondition :=
  match (registerOperands i).find? fun v => 7 < v.toNat with
  | some v => some (.invalidRegisterIndex v)
  | none =>
    if isPush i = true ∧ (s.reg spIndex).toNat ≤ (s.reg boundIndex).toNat then
      some (.stackOverflow (s.reg spIndex) (s.reg boundIndex))
    else none

/-- Item 7 of the list, the advance: three bytes from 253. -/
def advanceFault (i : Instr) (s : State) : Option FatalCondition :=
  if i.operands.length = 2 ∧ s.pc.toNat = 253 then some (.addressOutOfRange 256) else none

theorem handlerFault_illegal {i : Instr} {v : Byte} (s : State)
    (h : (registerOperands i).find? (fun w => decide (7 < w.toNat)) = some v) :
    handlerFault i s = some (.invalidRegisterIndex v) := by
  rw [handlerFault, h]

theorem handlerFault_legal {i : Instr} (s : State)
    (h : (registerOperands i).find? (fun w => decide (7 < w.toNat)) = none) :
    handlerFault i s = if isPush i = true ∧ (s.reg spIndex).toNat ≤ (s.reg boundIndex).toNat then
      some (.stackOverflow (s.reg spIndex) (s.reg boundIndex)) else none := by
  rw [handlerFault, h]

theorem handlerFault_not_push {i : Instr} (s : State)
    (h : (registerOperands i).find? (fun w => decide (7 < w.toNat)) = none) (hi : isPush i = false) :
    handlerFault i s = none := by
  rw [handlerFault_legal s h, hi, if_neg fun ⟨hp, _⟩ => Bool.noConfusion hp]

theorem handlerFault_push (a : Fin 8) (s : State) :
    handlerFault (.push (regByte a)) s =
      if pushFits s = true then none else some (.stackOverflow (s.reg spIndex) (s.reg boundIndex)) := by
  rw [handlerFault_legal s (by simp [registerOperands, regByte_legal])]
  by_cases hf : (s.reg boundIndex).toNat < (s.reg spIndex).toNat
  · rw [if_pos ((pushFits_iff s).2 hf), if_neg fun ⟨_, hle⟩ => Nat.not_le.2 hf hle]
  · rw [if_neg fun h => hf ((pushFits_iff s).1 h), if_pos ⟨rfl, Nat.not_lt.1 hf⟩]

/-- The list is its handler's items before its advance's. -/
theorem instrFault_eq (i : Instr) (s : State) : instrFault i s = (handlerFault i s).or (advanceFault i s) := by
  cases hv : (registerOperands i).find? fun w => decide (7 < w.toNat) with
  | some v => rw [instrFault, hv, handlerFault_illegal s hv, Option.some_or]
  | none =>
    rw [instrFault, hv, handlerFault_legal s hv]
    by_cases ho : isPush i = true ∧ (s.reg spIndex).toNat ≤ (s.reg boundIndex).toNat
    · rw [if_pos ho, if_pos ho, Option.some_or]
    · rw [if_neg ho, if_neg ho, Option.none_or, advanceFault]

theorem firstFault_top (c : Config) {s : State} (hp : 254 ≤ s.pc.toNat) :
    firstFault c s = some (.addressOutOfRange 256) := by
  unfold firstFault
  split
  · rfl
  · rw [if_pos (by omega)]

theorem firstFault_nextInstr {c : Config} {s : State} {i : Instr} (hi : nextInstr c s = some i) :
    firstFault c s = instrFault i s := by
  have hp := (nextInstr_opcode hi).1
  rw [nextInstr, if_pos hp] at hi
  rw [firstFault, if_neg (by omega), if_neg (by omega), hi]

theorem firstFault_unmapped {c : Config} {s : State} (hp : s.pc.toNat ≤ 253) (hi : nextInstr c s = none) :
    firstFault c s = some (.unhandledInstruction (s.mem.read s.pc.toNat)) := by
  rw [nextInstr, if_pos hp] at hi
  rw [firstFault, if_neg (by omega), if_neg (by omega), hi]

/-! ## What a step raises -/

/-- A handler raises exactly the first of its items, at the addresses the engine runs it at. -/
theorem faultOf_exec {i : Instr} {s u : State} (hr : s.run = .running) (hp : s.pc.toNat ≤ 253) (h : exec i s = .next u) :
    faultOf u = handlerFault i s := by
  have returned (hrun : u.run = s.run) : faultOf u = none := faultOf_running (hrun.trans hr)
  cases exec_cases h with
  | illegal hv => exact (handlerFault_illegal s hv).symm
  | overflow hf => rw [handlerFault_push, hf, if_neg Bool.false_ne_true]; rfl
  | push hf => rw [handlerFault_push, if_pos hf]; exact returned rfl
  | hlt => rfl
  | pop =>
    rw [handlerFault_not_push s (by simp [registerOperands, regByte_legal]) rfl]
    exact returned (incrementSp_run _)
  | jeqNotTaken _ hm | jneNotTaken _ hm =>
    rw [handlerFault_not_push s (by simp [registerOperands, regByte_legal]) rfl]
    rw [movePc_inside s _ (by omega)] at hm
    cases hm
    exact returned rfl
  | ldi | prn | mul | add | cmp | jmp | jeqTaken | jneTaken =>
    rw [handlerFault_not_push s (by simp [registerOperands, regByte_legal]) rfl]
    exact returned rfl

theorem operands_length_le (i : Instr) : i.operands.length ≤ 2 := by cases i <;> simp [Instr.operands]

/-- The jumps have one operand, so no advance item. -/
theorem advanceFault_jump {i : Instr} (s : State) (hw : writesPc i.mnemonic = true) : advanceFault i s = none := by
  rw [advanceFault, operands_length, operandCount_of_writesPc hw]
  exact if_neg fun ⟨h, _⟩ => by cases h

theorem faultOf_stepWith_nextInstr {c : Config} {s t : State} {i : Instr} (hv : ValidAssignment c)
    (hi : nextInstr c s = some i) (h : stepWith c s = .next t) : faultOf t = instrFault i s := by
  have hlen := operands_length_le i
  obtain ⟨hr, hp, u, hu, hcase⟩ := stepWith_valid_cases hv hi h
  rw [instrFault_eq, ← faultOf_exec hr hp hu]
  obtain ⟨f, hf, rfl⟩ | ⟨hf, hcase⟩ := hcase
  · rw [faultOf_eq_some.2 hf, Option.some_or]
  · rw [faultOf_eq_none.2 hf, Option.none_or]
    obtain ⟨hw, rfl⟩ | ⟨-, -, hfits, rfl⟩ | ⟨-, -, hover, rfl⟩ := hcase
    · rw [advanceFault_jump s hw, faultOf_eq_none.2 hf]
    · rw [advanceFault, if_neg (by omega)]
      exact faultOf_eq_none.2 hf
    · have hsum : s.pc.toNat + (i.operands.length + 1) = 256 := by omega
      rw [advanceFault, if_pos (by omega), hsum]
      rfl

/-- Settles O43: the pre-fetch, the lookup, the handler and the advance each raise their own items of the list. -/
theorem stepRaisesTheFirstFaultOfTheList : Obligations.StepRaisesTheFirstFaultOfTheList := by
  intro c s t hv h
  have hr := (stepWith_cases h).1
  by_cases hp : s.pc.toNat ≤ 253
  · cases hi : nextInstr c s with
    | some i => rw [firstFault_nextInstr hi, faultOf_stepWith_nextInstr hv hi h]
    | none =>
      rw [stepWith_running c hr, if_pos hp] at h
      rw [firstFault_unmapped hp hi]
      rw [nextInstr, if_pos hp] at hi
      rw [hi] at h
      cases h
      rfl
  · rw [stepWith_top c hr (by omega)] at h
    cases h
    rw [firstFault_top c (by omega)]
    rfl

/-! ## Precision -/

/-- Settles O44: a handler's raise and the engine's own change `run` alone, and the advance's fault leaves `pc` and needs three
bytes at 253. -/
theorem faultsArePrecise : Obligations.FaultsArePrecise := by
  intro c s t f hv h hf
  cases hi : nextInstr c s with
  | none =>
    obtain ⟨-, ⟨i, -, hi', -⟩ | ⟨-, g, -, rfl⟩⟩ := stepWith_cases h
    · rw [hi] at hi'; cases hi'
    · cases hf
      exact ⟨rfl, fun _ => rfl⟩
  | some i =>
    have hlen := operands_length_le i
    obtain ⟨hr, hp, u, hu, ⟨g, -, rfl⟩ | ⟨hn, ⟨-, rfl⟩ | ⟨-, -, -, rfl⟩ | ⟨-, hpc, hover, rfl⟩⟩⟩ :=
      stepWith_valid_cases hv hi h
    · obtain ⟨rfl, -⟩ := exec_raised hr hu hf
      exact ⟨rfl, fun _ => rfl⟩
    · exact absurd hf (hn f)
    · exact absurd hf (hn f)
    · exact ⟨hpc, fun h253 => absurd hover (by omega)⟩

/-! ## A program that meets its obligations -/

theorem wellFormed_eq_all (i : Instr) : i.wellFormed = (registerOperands i).all legalRegister := by
  cases i <;> simp [Instr.wellFormed, registerOperands]

theorem find_illegal_of_wellFormed {i : Instr} (h : i.wellFormed = true) :
    (registerOperands i).find? (fun w => decide (7 < w.toNat)) = none := by
  rw [wellFormed_eq_all, List.all_eq_true] at h
  rw [List.find?_eq_none]
  intro v hv
  simpa [legalRegister] using h v hv

/-- Settles O45: each premise rules out one item of the list, and the list is what the step raises. -/
theorem programObligationsMakeAStepSafe : Obligations.ProgramObligationsMakeAStepSafe := by
  intro c s i hv hr hi hwf hlen hpush
  obtain ⟨t, ht⟩ := stepWith_answers c hr
  refine ⟨t, ht, faultOf_eq_none.1 ?_⟩
  have hhandler : handlerFault i s = none := by
    rw [handlerFault_legal s (find_illegal_of_wellFormed hwf)]
    exact if_neg fun ⟨hp, hle⟩ => Nat.not_lt.2 hle (hpush hp)
  have hadvance : advanceFault i s = none := if_neg (by omega)
  rw [faultOf_stepWith_nextInstr hv hi ht, instrFault_eq, hhandler, hadvance, Option.none_or]

end Sys2Proof.Machine
end

section
/-! SUPPORT. Two steps in a row: a POP after a PUSH (43_stack.md R87 (b)) and a branch after a CMP (44_branch.md). Each step is
its handler's completion followed by the advance of its byte. -/

namespace Sys2Proof.Machine

/-- `AdvanceAgreesAtEveryValidAssignment` for a handler that leaves `run`: all that the two steps below need of the engine. -/
theorem stepWith_completed {c : Config} {s u : State} {i : Instr} (hv : ValidAssignment c) (hr : s.run = .running)
    (hi : nextInstr c s = some i) (hu : exec i s = .next u) (hrun : u.run = s.run)
    (hfits : s.pc.toNat + (operandCount i.mnemonic + 1) ≤ 255) :
    ∃ t, stepWith c s = .next t ∧ (∀ j, t.reg j = u.reg j) ∧ t.fl = u.fl ∧ t.run = .running ∧ t.mem = u.mem ∧
      if writesPc i.mnemonic = true then t.pc = u.pc
      else t.pc.toNat = s.pc.toNat + (operandCount i.mnemonic + 1) := by
  have hur : u.run = .running := hrun.trans hr
  obtain ⟨t, ht, hreg, hfl, htr, hmem, -, hpc⟩ :=
    (advanceAgreesAtEveryValidAssignment c hv).2 s u i hr hi hu (faultOf_running hur) hfits
  exact ⟨t, ht, hreg, hfl, htr.trans hur, hmem, hpc⟩

/-- Settles O36: the POP reads the cell the PUSH wrote, and the stack pointer, then below the stack head, goes up again. -/
theorem pushThenPopRoundTrips : Obligations.PushThenPopRoundTrips := by
  intro c a b s hv ha hb hwf hr hlt hhead hi
  have hp := (nextInstr_opcode hi).1
  obtain ⟨u, hu, husp, -, hstored, -, -, -, hurun, -⟩ := pushCompletes a s hwf hlt
  rw [if_neg ha] at hstored
  obtain ⟨t, ht, htreg, -, htr, htmem, htpc : t.pc.toNat = s.pc.toNat + 2⟩ :=
    stepWith_completed hv hr hi hu hurun (show s.pc.toNat + 2 ≤ 255 by omega)
  refine ⟨t, ht, htpc, fun hi' => ?_⟩
  have hp' := (nextInstr_opcode hi').1
  have htsp : (t.reg spIndex).toNat = (s.reg spIndex).toNat - 1 := by rw [htreg, husp]
  obtain ⟨w, hw, hwb, hwsp, -, -, -, hwrun, -⟩ := popCompletes b t
  obtain ⟨v, hv', hvreg, -, -, -, hvpc : v.pc.toNat = t.pc.toNat + 2⟩ :=
    stepWith_completed hv htr hi' hw hwrun (show t.pc.toNat + 2 ≤ 255 by omega)
  refine ⟨v, hv', by omega, ?_, BitVec.eq_of_toNat_eq ?_⟩
  · rw [hvreg, hwb hb, htsp, htmem, hstored]
  · rw [if_neg hb] at hwsp
    rw [hvreg, hwsp, htsp, if_pos (by omega)]
    omega

/-- Settles O37: the branch's handler tests the flag the CMP wrote, and nothing is added to the `pc` it leaves. -/
theorem compareDecidesTheBranch : Obligations.CompareDecidesTheBranch := by
  intro c a b d s hv hr hp hi
  obtain ⟨u, hu, hequal, -, hureg, -, hurun, -⟩ := cmpCompletes a b s
  obtain ⟨t, ht, htreg, htfl, htr, -, htpc : t.pc.toNat = s.pc.toNat + 3⟩ :=
    stepWith_completed hv hr hi hu hurun (show s.pc.toNat + 3 ≤ 255 by omega)
  have hflag : equalFlag t.fl = true ↔ s.reg a = s.reg b := by rw [htfl, hequal]
  have hd : t.reg d = s.reg d := by rw [htreg, hureg]
  refine ⟨t, ht, fun hi' => ?_, fun hi' => ?_⟩
  · have hp' := (nextInstr_opcode hi').1
    obtain ⟨w, hw, hwpc, -, -, hwrun, -⟩ := jeqCompletes d t hp'
    obtain ⟨v, hv', -, -, -, -, hvpc : v.pc = w.pc⟩ :=
      stepWith_completed hv htr hi' hw hwrun (show t.pc.toNat + 2 ≤ 255 by omega)
    refine ⟨v, hv', ?_⟩
    simp only [hflag, hd, htpc] at hwpc
    rwa [hvpc]
  · have hp' := (nextInstr_opcode hi').1
    obtain ⟨w, hw, hwpc, -, -, hwrun, -⟩ := jneCompletes d t hp'
    obtain ⟨v, hv', -, -, -, -, hvpc : v.pc = w.pc⟩ :=
      stepWith_completed hv htr hi' hw hwrun (show t.pc.toNat + 2 ≤ 255 by omega)
    refine ⟨v, hv', ?_⟩
    simp only [hflag, hd, htpc] at hwpc
    rwa [hvpc]

end Sys2Proof.Machine
end
